-- ==== Sys2Proof/Word.lean ====
section
/-! DEFINITION. The word and byte types of the Threshold field-arithmetic core (00_scope.md R7, R11):
every register, memory and bus value is an unsigned 32-bit word, and the two buffers hold bytes. -/

namespace Sys2Proof

/-- A register, coefficient, command or bus value: WORD = 32 bits, unsigned (R7, R11). -/
abbrev Word := BitVec 32

/-- One byte of RDBUF or WRBUF (R32, R33). -/
abbrev Byte := BitVec 8

/-- What a host transaction carries of its address: addr[13:2], so that every offset is a multiple of 4
inside the window and a misaligned or sub-word access cannot be expressed (20_memory.md R83). -/
abbrev WordAddr := BitVec 12

/-- The byte offset, from BASE, of a word address: the word address times 4 (92_eei_decisions.md D7). -/
def WordAddr.offset (a : WordAddr) : Nat := 4 * a.toNat

/-- The word address of a byte offset that is a multiple of 4 in the window: bits 13:2. -/
def WordAddr.ofOffset (off : Nat) : WordAddr := BitVec.ofNat 12 (off / 4)

end Sys2Proof
end

