-- ==== Sys2Proof/Syntax.lean ====
section
/-! DEFINITION. The thirteen commands (30_encoding.md R116), one constructor per row of the opcode table. -/

namespace Sys2Proof

/-- A register field RD, RS1 or RS2: the number v names Fv, and each of 0 to 15 is legal (R112). -/
abbrev Reg := Fin 16

/-- A command with its operands. `k` is the bit-group width immediate K (R113); an encodable K is below 64
(see `Instr.wf`). -/
inductive Instr
  | nop
  | finv (rd rs1 : Reg)
  | rdbits (rd : Reg) (k : Nat)
  | wrblk (rs1 : Reg) (k : Nat)
  | wrfin (rd rs1 : Reg) (k : Nat)
  | fadd (rd rs1 rs2 : Reg)
  | fsub (rd rs1 rs2 : Reg)
  | fmul (rd rs1 rs2 : Reg)
  | fsample (rd rs1 : Reg)
  | peval (rd rs1 : Reg)
  | czero
  | cput (rs1 rs2 : Reg)
  | cget (rd rs2 : Reg)
deriving DecidableEq, Repr

end Sys2Proof
end

