-- ==== Sys2Proof/WellFormed.lean ====
section
/-! DEFINITION. Which commands an assembler accepts: K outside 0 to 63 cannot be encoded (30_encoding.md R113,
R120). A register number outside 0 to 15 is not a `Reg`, so nothing has to be checked about registers. -/

namespace Sys2Proof

/-- K fits its 6-bit field (R111, R113). -/
def encodableWidth (k : Nat) : Bool := decide (k < 64)

/-- The command can be encoded (R120: "An assembler refuses K outside 0 to 63"). -/
def Instr.wf : Instr → Bool
  | .nop => true
  | .finv _ _ => true
  | .rdbits _ k => encodableWidth k
  | .wrblk _ k => encodableWidth k
  | .wrfin _ _ k => encodableWidth k
  | .fadd _ _ _ => true
  | .fsub _ _ _ => true
  | .fmul _ _ _ => true
  | .fsample _ _ => true
  | .peval _ _ => true
  | .czero => true
  | .cput _ _ => true
  | .cget _ _ => true

end Sys2Proof
end

