-- ==== Sys2Proof/Decode.lean ====
section
/-! DEFINITION. Decoding a command word (30_encoding.md R111, R116, R119), encoding a command (R120), and the
assembler's spelling of it (R120). The core decodes at completion, never at issue (40_command_cycle.md R140). -/

namespace Sys2Proof

/-- Why a word is not a command. Both complete with ILLEGAL_COMMAND (60_exceptions.md R242). -/
inductive DecodeError
  /-- OPC is in 0x0D to 0xFF (R118). -/
  | undefinedOpcode
  /-- OPC is defined, but a bit its mask requires to be 0 is 1 (R117). -/
  | nonzeroField
deriving DecidableEq, Repr

/-! ## Fields of the command word (R111) -/

/-- OPC, bits 31:24. -/
def opcField (w : Word) : BitVec 8 := w.extractLsb' 24 8
/-- RD, bits 23:20. -/
def rdField (w : Word) : Reg := (w.extractLsb' 20 4).toFin
/-- RS1, bits 19:16. -/
def rs1Field (w : Word) : Reg := (w.extractLsb' 16 4).toFin
/-- RS2, bits 15:12. -/
def rs2Field (w : Word) : Reg := (w.extractLsb' 12 4).toFin
/-- RSV, bits 11:6. -/
def rsvField (w : Word) : BitVec 6 := w.extractLsb' 6 6
/-- K, bits 5:0, zero-extended: never sign-extended, scaled or shifted (R113). -/
def kField (w : Word) : Nat := (w.extractLsb' 0 6).toNat

/-! ## The opcode map (R116) -/

/-- A row of the opcode map: the OPC number, the table's `match` and `mask`, and the command the row stands for
as a function of the fields RD, RS1, RS2 and K. -/
structure Row where
  opc : BitVec 8
  pattern : Word
  mask : Word
  build : Reg → Reg → Reg → Nat → Instr

/-- The opcode map, in the table's order (R116). -/
def opcodeMap : List Row :=
  [ ⟨0x00, 0x00000000, 0xFFFFFFFF, fun _ _ _ _ => .nop⟩,
    ⟨0x01, 0x01000000, 0xFF00FFFF, fun rd rs1 _ _ => .finv rd rs1⟩,
    ⟨0x02, 0x02000000, 0xFF0FFFC0, fun rd _ _ k => .rdbits rd k⟩,
    ⟨0x03, 0x03000000, 0xFFF0FFC0, fun _ rs1 _ k => .wrblk rs1 k⟩,
    ⟨0x04, 0x04000000, 0xFF00FFC0, fun rd rs1 _ k => .wrfin rd rs1 k⟩,
    ⟨0x05, 0x05000000, 0xFF000FFF, fun rd rs1 rs2 _ => .fadd rd rs1 rs2⟩,
    ⟨0x06, 0x06000000, 0xFF000FFF, fun rd rs1 rs2 _ => .fsub rd rs1 rs2⟩,
    ⟨0x07, 0x07000000, 0xFF000FFF, fun rd rs1 rs2 _ => .fmul rd rs1 rs2⟩,
    ⟨0x08, 0x08000000, 0xFF00FFFF, fun rd rs1 _ _ => .fsample rd rs1⟩,
    ⟨0x09, 0x09000000, 0xFF00FFFF, fun rd rs1 _ _ => .peval rd rs1⟩,
    ⟨0x0A, 0x0A000000, 0xFFFFFFFF, fun _ _ _ _ => .czero⟩,
    ⟨0x0B, 0x0B000000, 0xFFF00FFF, fun _ rs1 rs2 _ => .cput rs1 rs2⟩,
    ⟨0x0C, 0x0C000000, 0xFF0F0FFF, fun rd _ rs2 _ => .cget rd rs2⟩ ]

/-- A word is the row's command exactly when `(w & mask) == match` (R116). -/
def Row.accepts (r : Row) (w : Word) : Bool := w &&& r.mask == r.pattern

/-- The row of an opcode number, if it is defined (R118). -/
def rowOf (opc : BitVec 8) : Option Row := opcodeMap.find? (fun r => r.opc == opc)

/-- Decoding, total on every word (R119). -/
def decode (w : Word) : Except DecodeError Instr :=
  match rowOf (opcField w) with
  | none => .error .undefinedOpcode
  | some r =>
    if r.accepts w then .ok (r.build (rdField w) (rs1Field w) (rs2Field w) (kField w))
    else .error .nonzeroField

/-! ## The encoder (R120) -/

/-- The word with the given fields and RSV = 0 (R111). -/
def assemble (opc : BitVec 8) (rd rs1 rs2 : Reg) (k : Nat) : Word :=
  opc ++ BitVec.ofFin (w := 4) rd ++ BitVec.ofFin (w := 4) rs1 ++ BitVec.ofFin (w := 4) rs2 ++ 0#6 ++ BitVec.ofNat 6 k

/-- The command's word: every field it does not use is 0 (R115, R120). -/
def encode : Instr → Word
  | .nop => assemble 0x00 0 0 0 0
  | .finv rd rs1 => assemble 0x01 rd rs1 0 0
  | .rdbits rd k => assemble 0x02 rd 0 0 k
  | .wrblk rs1 k => assemble 0x03 0 rs1 0 k
  | .wrfin rd rs1 k => assemble 0x04 rd rs1 0 k
  | .fadd rd rs1 rs2 => assemble 0x05 rd rs1 rs2 0
  | .fsub rd rs1 rs2 => assemble 0x06 rd rs1 rs2 0
  | .fmul rd rs1 rs2 => assemble 0x07 rd rs1 rs2 0
  | .fsample rd rs1 => assemble 0x08 rd rs1 0 0
  | .peval rd rs1 => assemble 0x09 rd rs1 0 0
  | .czero => assemble 0x0A 0 0 0 0
  | .cput rs1 rs2 => assemble 0x0B 0 rs1 rs2 0
  | .cget rd rs2 => assemble 0x0C rd 0 rs2 0

/-- The host's entry point: the command the decoder reads from the word `w` of `nbits` bits. A command is one
32-bit bus word (R110), so bits above `nbits` are 0 and nothing longer than 32 bits is a command (log 8). -/
def decodeTableWord (nbits w : Nat) : Option Instr :=
  if nbits ≤ 32 then
    match decode (BitVec.ofNat 32 (w % 2 ^ nbits)) with
    | .ok i => some i
    | .error _ => none
  else none

/-! ## Assembler syntax (R120) -/

/-- `f0` to `f15`. -/
def Reg.asm (r : Reg) : String := "f" ++ toString r.val

/-- The command as the assembler writes it; the brackets of CPUT and CGET mark a coefficient index (R120). -/
def Instr.asm : Instr → String
  | .nop => "NOP"
  | .finv rd rs1 => "FINV " ++ Reg.asm rd ++ ", " ++ Reg.asm rs1
  | .rdbits rd k => "RDBITS " ++ Reg.asm rd ++ ", " ++ toString k
  | .wrblk rs1 k => "WRBLK " ++ Reg.asm rs1 ++ ", " ++ toString k
  | .wrfin rd rs1 k => "WRFIN " ++ Reg.asm rd ++ ", " ++ Reg.asm rs1 ++ ", " ++ toString k
  | .fadd rd rs1 rs2 => "FADD " ++ Reg.asm rd ++ ", " ++ Reg.asm rs1 ++ ", " ++ Reg.asm rs2
  | .fsub rd rs1 rs2 => "FSUB " ++ Reg.asm rd ++ ", " ++ Reg.asm rs1 ++ ", " ++ Reg.asm rs2
  | .fmul rd rs1 rs2 => "FMUL " ++ Reg.asm rd ++ ", " ++ Reg.asm rs1 ++ ", " ++ Reg.asm rs2
  | .fsample rd rs1 => "FSAMPLE " ++ Reg.asm rd ++ ", " ++ Reg.asm rs1
  | .peval rd rs1 => "PEVAL " ++ Reg.asm rd ++ ", " ++ Reg.asm rs1
  | .czero => "CZERO"
  | .cput rs1 rs2 => "CPUT " ++ Reg.asm rs1 ++ ", [" ++ Reg.asm rs2 ++ "]"
  | .cget rd rs2 => "CGET " ++ Reg.asm rd ++ ", [" ++ Reg.asm rs2 ++ "]"

end Sys2Proof
end

