-- ==== Sys2Proof/Config.lean ====
section
/-! DEFINITION. What is fixed for the machine (00_scope.md R3, R7) and the values the spec leaves open
(93_implementation_defined.md U1, U3), the latter as constants without a body. -/

namespace Sys2Proof.Config

/-- The modulus, fixed in hardware: p = 2^31 - 1 = 0x7FFFFFFF (R3). -/
def p : Nat := 2 ^ 31 - 1

/-- COEF_DEPTH, the number of coefficient words (R7, D5). -/
def coefDepth : Nat := 256

/-- BUF_BYTES, the size of RDBUF and of WRBUF in bytes (R7, D6). -/
def bufBytes : Nat := 4096

/-- The greatest legal bit-group width; the least is 1 (R7 "K range"). -/
def maxWidth : Nat := 32

/-- CHUNK, the chunk width of the host programs; no command depends on it (R7, 42_bit_reader.md R184). -/
def chunk : Nat := 30

/-- BASE, the platform address of the window (R7, 93 U3). OPEN: nothing in the core depends on it. Log 5. -/
opaque base : Nat

/-- The unspecified word that a host read of an offset other than STATUS or CMD returns while BUSY = 1
(40_command_cycle.md R145, 93 U1: "a draw under no law"): the n-th draw of the run. Log 2. -/
opaque busyRead : Nat → Word

end Sys2Proof.Config
end

