-- ==== Sys2Proof/Machine/State.lean ====
section
/-! DEFINITION. Everything the spec gives the machine to hold (10_state.md R30 to R56), as plain data; the state after
reset (70_reset_and_hazards.md R271); and the ways a step could stop. -/

namespace Sys2Proof.Machine

/-- A byte buffer: the bytes that differ from 0x00, as (index, byte) cells with rising indexes. An index that is not
listed reads 0x00, the reset contents (R32, R33, R271). `Memory.wf` (Machine/Ops.lean) is the canonical form. -/
abbrev Memory := List Host.Cell

/-- The error kinds a failing command reports (60_exceptions.md R240). An error is a recorded outcome, not a fault:
the machine goes on. -/
inductive CmdError
  | illegalCommand
  | invalidArgument
  | fieldRange
  | notInvertible
  | invalidPadding
  | bufferOverflow
  | alreadyFinalized
deriving DecidableEq, Repr

/-- The fields of STATUS (R35). `busy`, `eos` and `wfin` persist; the others describe the latest command (R53).
`Status.word` (Machine/Flags.lean) lays them out. -/
structure Status where
  /-- bit 0 BUSY: a command is in flight (R36). -/
  busy : Bool
  /-- bit 1 DONE: the last issued command has completed (R37). -/
  done : Bool
  /-- bit 2 ERR: the last completed command failed (R38). -/
  err : Bool
  /-- bits 7:4 ECODE: the error code (R39). -/
  ecode : BitVec 4
  /-- bit 8 NONE: the last RDBITS returned `None` (R40). -/
  none : Bool
  /-- bit 9 REJ: the last FSAMPLE rejected its word (R41). -/
  rej : Bool
  /-- bit 10 WBUSY: a host write was dropped while this command was in flight (R42). -/
  wbusy : Bool
  /-- bit 12 EOS: the reader has delivered its padding group (R43). -/
  eos : Bool
  /-- bit 13 WFIN: the writer is finalized (R44). -/
  wfin : Bool
deriving DecidableEq, Repr

/-- What happens next, as the outside decides it (00_scope.md R8, 60_exceptions.md R252): a host transaction
(20_memory.md R83), the core's turn, or a power-on reset (70_reset_and_hazards.md R270). -/
inductive Move
  /-- MemRead of the word at `a`. -/
  | read (a : WordAddr)
  /-- MemWrite of `v` to the word at `a`. -/
  | write (a : WordAddr) (v : Word)
  /-- The core's turn: the completion step if a command is in flight, nothing otherwise. -/
  | core
  /-- Power-on reset. -/
  | powerOn
deriving DecidableEq, Repr

/-- The MODEL's own part of the state: the interleaving of R252 as data, what the host last read, and how many free
values have been drawn (logs 1, 2, 3). -/
structure Bus where
  /-- The moves to come, the next one first. When none is left it is always the core's turn (40_command_cycle.md
  R143: completion is eventually taken). -/
  pending : List Move
  /-- The word the latest MemRead returned to the host. -/
  rdata : Word
  /-- How many values of `Config.busyRead` have been drawn. -/
  draws : Nat
deriving DecidableEq, Repr

/-- The machine (10_state.md). CTRL holds nothing: it reads 0, and writing its bit 0 is an event (R45, log 11). The
command in flight (R51) is `cmd` while `status.busy`. -/
structure State where
  /-- F0 to F15 (R30). -/
  f : Vector Word 16
  /-- COEF[0..255] (R31). -/
  coef : Vector Word 256
  /-- RDBUF bytes RB(0..4095) (R32). -/
  rdbuf : Memory
  /-- WRBUF bytes WB(0..4095) (R33). -/
  wrbuf : Memory
  /-- CMD (R34). -/
  cmd : Word
  /-- STATUS (R35 to R44). -/
  status : Status
  /-- RD_LEN bits 12:0 (R46). -/
  rdLen : BitVec 13
  /-- RD_POS bits 15:0 (R47). -/
  rdPos : BitVec 16
  /-- WR_CAP bits 12:0 (R48). -/
  wrCap : BitVec 13
  /-- WR_TOTAL bits 15:0 (R49). -/
  wrTotal : BitVec 16
  /-- PCOUNT bits 8:0 (R50). -/
  pcount : BitVec 9
  /-- The model's own part. -/
  bus : Bus
deriving DecidableEq, Repr

/-- Nothing stops this machine: "There are no traps" (60_exceptions.md R253), every error is a status code, every
offset of the window is reachable (20_memory.md R95), and no command reaches a buffer byte that does not exist. So no
fault has a name: the type has no constructor, and no step can fault. -/
inductive Fault
deriving DecidableEq, Repr

/-- Why an instruction has no meaning. -/
inductive Refusal
  /-- Raised only by an arm of `exec` whose instruction has no meaning yet; none has been left so. Safe. -/
  | notModelled (mnemonic : String)
deriving DecidableEq, Repr

/-- All STATUS fields 0 (R271). -/
def Status.reset : Status :=
  ⟨false, false, false, 0, false, false, false, false, false⟩

/-- The machine right after reset: every register, word and byte 0, no command in flight (R271). The bus fields are
the model's own (logs 1, 2, 3): no move is pending. -/
def State.reset : State where
  f := Vector.replicate 16 0
  coef := Vector.replicate 256 0
  rdbuf := []
  wrbuf := []
  cmd := 0
  status := Status.reset
  rdLen := 0
  rdPos := 0
  wrCap := 0
  wrTotal := 0
  pcount := 0
  bus := ⟨[], 0, 0⟩

end Sys2Proof.Machine
end

