-- ==== Sys2Proof/Machine/Flags.lean ====
section
/-! DEFINITION. STATUS: its 32-bit layout (10_state.md R35), the numbers of the error codes (60_exceptions.md R240), and
what issue, success and failure do to its fields (40_command_cycle.md R140, R141). The core has no condition codes,
carry or overflow flags (R53). -/

namespace Sys2Proof.Machine

/-- ECODE of each error kind (R240). Codes 8 to 15 are reserved and never produced. -/
def CmdError.code : CmdError → BitVec 4
  | .illegalCommand => 1
  | .invalidArgument => 2
  | .fieldRange => 3
  | .notInvertible => 4
  | .invalidPadding => 5
  | .bufferOverflow => 6
  | .alreadyFinalized => 7

/-- The STATUS word, bit 31 first; bits 31:14, 11 and 3 read 0 (R35). -/
def Status.word (st : Status) : Word :=
  0#18 ++ BitVec.ofBool st.wfin ++ BitVec.ofBool st.eos ++ 0#1 ++ BitVec.ofBool st.wbusy ++ BitVec.ofBool st.rej
    ++ BitVec.ofBool st.none ++ st.ecode ++ 0#1 ++ BitVec.ofBool st.err ++ BitVec.ofBool st.done
    ++ BitVec.ofBool st.busy

/-- At issue: BUSY set, the per-command fields cleared, EOS and WFIN kept (R140). -/
def Status.issued (st : Status) : Status :=
  { st with busy := true, done := false, err := false, ecode := 0, none := false, rej := false, wbusy := false }

/-- At a successful completion: BUSY cleared, DONE set, the rest as issue and the command left it (R141). -/
def Status.completed (st : Status) : Status :=
  { st with busy := false, done := true }

/-- At a failed completion: ERR and ECODE record the error, nothing else is recorded (R141, R241). -/
def Status.failed (e : CmdError) (st : Status) : Status :=
  { st with busy := false, done := true, err := true, ecode := e.code }

end Sys2Proof.Machine
end

