-- ==== Sys2Proof/Machine/Operands.lean ====
section
/-! DEFINITION. The operand forms and checks common to the commands (30_encoding.md R112 to R114; 40_command_cycle.md
R146, R147): registers, field operands, the width K, coefficient indexes. -/

namespace Sys2Proof.Machine

/-- F[r] (00_scope.md R12). Every register is an ordinary one: none is hardwired (R30). -/
def State.readF (s : State) (r : Reg) : Word := s.f.get r

/-- F[r] <- v. -/
def State.writeF (s : State) (r : Reg) (v : Word) : State := { s with f := s.f.set r.val v r.isLt }

/-- COEF[j] (R12, R31). -/
def State.readCoef (s : State) (j : Fin 256) : Word := s.coef.get j

/-- COEF[j] <- v. -/
def State.writeCoef (s : State) (j : Fin 256) (v : Word) : State := { s with coef := s.coef.set j.val v j.isLt }

/-- `fe(v)`: the field element v, or `none` where v ≥ p and FIELD_RANGE is to be raised (R12, R147). -/
def fieldElement (v : Word) : Option Nat := if v.toNat < Config.p then some v.toNat else none

/-- The word that holds a number below 2^32. -/
def wordOf (n : Nat) : Word := BitVec.ofNat 32 n

/-- K is a legal bit-group width, 1 to 32 (R113). -/
def legalWidth (k : Nat) : Bool := decide (1 ≤ k) && decide (k ≤ Config.maxWidth)

/-- The low k bits of a register, the rest ignored: F[rs] mod 2^k (43_bit_writer.md R192, R193). -/
def lowBits (k : Nat) (v : Word) : Nat := v.toNat % 2 ^ k

/-- A coefficient index: the whole 32-bit register as an unsigned number, not reduced mod 256; `none` where it is
256 or more (45_poly_eval.md R223, R224). -/
def coefIndex (v : Word) : Option (Fin 256) := if h : v.toNat < 256 then some ⟨v.toNat, h⟩ else none

/-- `tz(v)`: the number of trailing zero bits of v > 0, looked for in its low `n` bits (R11). -/
def trailingZeros : Nat → Nat → Nat
  | 0, _ => 0
  | n + 1, v => if v % 2 = 1 then 0 else trailingZeros n (v / 2) + 1

end Sys2Proof.Machine
end

