-- ==== Sys2Proof/Machine/Ops.lean ====
section
/-! DEFINITION. The shared operations: bytes, bits and words of a buffer (20_memory.md R81, R82; 42 R181; 43 R191), a
command's successful completion, and its failure, which is this core's one form of an exception (40_command_cycle.md
R141, R142; 60_exceptions.md R241). -/

namespace Sys2Proof.Machine

/-! ## Bytes of a buffer -/

/-- What an unlisted byte reads as: the reset contents (R271). -/
def Memory.blank : Byte := 0

/-- The byte at index `a`. -/
def Memory.read : Memory → Nat → Byte
  | [], _ => Memory.blank
  | (b, w) :: m, a => if a = b then w else Memory.read m a

/-- Byte `a` <- v. The cells stay sorted, and a byte that is written back to 0x00 is no longer listed. -/
def Memory.write : Memory → Nat → Byte → Memory
  | [], a, v => if v = Memory.blank then [] else [(a, v)]
  | (b, w) :: m, a, v =>
    if a < b then (if v = Memory.blank then (b, w) :: m else (a, v) :: (b, w) :: m)
    else if a = b then (if v = Memory.blank then m else (a, v) :: m)
    else (b, w) :: Memory.write m a v

/-- The canonical form: indexes strictly rising and inside the buffer, and no byte listed that reads as unlisted. -/
abbrev Memory.wf (m : Memory) : Prop :=
  m.Pairwise (fun c d => c.1 < d.1) ∧ ∀ c ∈ m, c.1 < Config.bufBytes ∧ c.2 ≠ Memory.blank

/-! ## The bus lanes -/

/-- The big-endian 4-byte form of a word: v[31:24], v[23:16], v[15:8], v[7:0] (R97, and the lanes of R82). -/
def bigEndian (v : Word) : List Byte :=
  [v.extractLsb' 24 8, v.extractLsb' 16 8, v.extractLsb' 8 8, v.extractLsb' 0 8]

/-- Word i of a buffer window: bytes 4i to 4i+3, byte 4i in bits 31:24 (R82). -/
def Memory.readWord (m : Memory) (i : Nat) : Word :=
  m.read (4 * i) ++ m.read (4 * i + 1) ++ m.read (4 * i + 2) ++ m.read (4 * i + 3)

/-- Consecutive bytes from index `a`. -/
def Memory.writeBytes (m : Memory) (a : Nat) : List Byte → Memory
  | [] => m
  | v :: vs => Memory.writeBytes (m.write a v) (a + 1) vs

/-- A write of word i replaces all four bytes (R82). -/
def Memory.writeWord (m : Memory) (i : Nat) (v : Word) : Memory := m.writeBytes (4 * i) (bigEndian v)

/-! ## The bit stream -/

/-- Bit n of the stream: bit 7 - (n mod 8) of byte n div 8 (R81); `rbit(n)` of R181. -/
def Memory.bit (m : Memory) (n : Nat) : Bool := (m.read (n / 8)).getLsbD (7 - n % 8)

/-- Byte `x` with bit `i` set to `b`: `(x & ~(1 << i) & 0xFF) | (b << i)` (R191). -/
def withBit (x : Byte) (i : Nat) (b : Bool) : Byte :=
  (x &&& ~~~((1 : Byte) <<< i)) ||| ((if b then (1 : Byte) else 0) <<< i)

/-- `wbit(n) <- b`: the other seven bits of the byte are unchanged (R191). -/
def Memory.setBit (m : Memory) (n : Nat) (b : Bool) : Memory :=
  m.write (n / 8) (withBit (m.read (n / 8)) (7 - n % 8) b)

/-- The k bits from position `pos` on, the first the most significant: the sum over j < k of
`rbit(pos + j) << (k - 1 - j)` (R182). -/
def Memory.readBits (m : Memory) (pos : Nat) : Nat → Nat
  | 0 => 0
  | k + 1 => 2 * Memory.readBits m pos k + (m.bit (pos + k)).toNat

/-- For j in 0 .. k-1: `wbit(pos + j) <- (v >> (k - 1 - j)) & 1` (R192, R193): the last bit is v's lowest, and the
bits before it are those of v div 2. -/
def Memory.writeBits (m : Memory) (pos : Nat) : Nat → Nat → Memory
  | 0, _ => m
  | k + 1, v => (Memory.writeBits m pos k (v / 2)).setBit (pos + k) (decide (v % 2 = 1))

/-! ## Writes a command makes besides F and COEF -/

/-- The reader's cursor advances (R182, R47). -/
def State.setRdPos (s : State) (pos : Nat) : State := { s with rdPos := BitVec.ofNat 16 pos }

/-- EOS <- 1: the padding group has been delivered (R182, R43). -/
def State.setEos (s : State) : State := { s with status := { s.status with eos := true } }

/-- NONE <- 1 (R182, R40). -/
def State.setNone (s : State) : State := { s with status := { s.status with none := true } }

/-- REJ <- 1 (R203, R41). -/
def State.setRej (s : State) : State := { s with status := { s.status with rej := true } }

/-- The low k bits of v are appended to the WRBUF stream, and WR_TOTAL advances (R192, R193, R49). -/
def State.append (s : State) (k v : Nat) : State :=
  { s with wrbuf := s.wrbuf.writeBits s.wrTotal.toNat k v, wrTotal := BitVec.ofNat 16 (s.wrTotal.toNat + k) }

/-- WFIN <- 1 (R193, R44). -/
def State.setWfin (s : State) : State := { s with status := { s.status with wfin := true } }

/-- Every COEF word <- 0 (R222). -/
def State.clearCoef (s : State) : State := { s with coef := Vector.replicate 256 0 }

/-! ## Completion and failure -/

/-- A command completes: its effects are in `s`, BUSY <- 0 and DONE <- 1 (R141). -/
def complete (s : State) : Host.Outcome State Fault Refusal :=
  .next { s with status := s.status.completed }

/-- `raise e` (00_scope.md R12): TAKING AN ERROR. ERR <- 1, ECODE <- code(e), BUSY <- 0, DONE <- 1, and no other
state is written: no pc, mode or mask exists to save or change, and CMD keeps the failing word (R142, R241, R253).
There is no return from it: the next issue clears it (R254). -/
def raise (e : CmdError) (s : State) : Host.Outcome State Fault Refusal :=
  .next { s with status := s.status.failed e }

end Sys2Proof.Machine
end

