-- ==== Sys2Proof/Machine/Bus.lean ====
section
/-! DEFINITION. The host interface: the address map (20_memory.md R86), what a word read returns and what a word write
does, with BUSY = 0 and with BUSY = 1 (40_command_cycle.md R140, R144, R145), and the two resets
(70_reset_and_hazards.md R270 to R272). -/

namespace Sys2Proof.Machine

/-- What stands at an offset of the window (R86). -/
inductive Location
  | cmd
  | status
  | ctrl
  | rdLen
  | rdPos
  | wrCap
  | wrTotal
  | pcount
  | f (i : Fin 16)
  | coef (j : Fin 256)
  | rdbuf (i : Fin 1024)
  | wrbuf (i : Fin 1024)
  | reserved
deriving DecidableEq, Repr

/-- The address map, by byte offset (R86). -/
def locate (a : WordAddr) : Location :=
  if a.offset = 0x0000 then .cmd
  else if a.offset = 0x0004 then .status
  else if a.offset = 0x0008 then .ctrl
  else if a.offset = 0x000C then .rdLen
  else if a.offset = 0x0010 then .rdPos
  else if a.offset = 0x0014 then .wrCap
  else if a.offset = 0x0018 then .wrTotal
  else if a.offset = 0x001C then .pcount
  else if h : 0x0040 ≤ a.offset ∧ a.offset ≤ 0x007C then .f ⟨(a.offset - 0x0040) / 4, by omega⟩
  else if h : 0x0400 ≤ a.offset ∧ a.offset ≤ 0x07FC then .coef ⟨(a.offset - 0x0400) / 4, by omega⟩
  else if h : 0x1000 ≤ a.offset ∧ a.offset ≤ 0x1FFC then .rdbuf ⟨(a.offset - 0x1000) / 4, by omega⟩
  else if h : 0x2000 ≤ a.offset ∧ a.offset ≤ 0x2FFC then .wrbuf ⟨(a.offset - 0x2000) / 4, by omega⟩
  else .reserved

/-! ## Reads -/

/-- What a read of a location returns while BUSY = 0: its value, reserved bits and offsets 0, CTRL 0 (R86 to R88). -/
def State.valueAt (s : State) : Location → Word
  | .cmd => s.cmd
  | .status => s.status.word
  | .ctrl => 0
  | .rdLen => s.rdLen.setWidth 32
  | .rdPos => s.rdPos.setWidth 32
  | .wrCap => s.wrCap.setWidth 32
  | .wrTotal => s.wrTotal.setWidth 32
  | .pcount => s.pcount.setWidth 32
  | .f i => s.f.get i
  | .coef j => s.coef.get j
  | .rdbuf i => s.rdbuf.readWord i.val
  | .wrbuf i => s.wrbuf.readWord i.val
  | .reserved => 0

/-- MemRead: the value goes to the host and nothing of the core changes (R85). While BUSY = 1 only STATUS and CMD
return their value; any other offset, CTRL and the reserved ones too, returns an unspecified word (R145, logs 2, 12). -/
def State.hostRead (s : State) (a : WordAddr) : State :=
  if s.status.busy = false ∨ locate a = .cmd ∨ locate a = .status then
    { s with bus := { s.bus with rdata := s.valueAt (locate a) } }
  else
    { s with bus := { s.bus with rdata := Config.busyRead s.bus.draws, draws := s.bus.draws + 1 } }

/-! ## Writes and resets -/

/-- Issue of the command word w: CMD takes it unchecked, BUSY is set and the per-command fields cleared (R140). -/
def State.issue (s : State) (w : Word) : State := { s with cmd := w, status := s.status.issued }

/-- Reset: every piece of architectural state takes its reset value; a command in flight is abandoned (R271). What the
host has read and is going to do is not the core's, and stays (log 9). -/
def State.clear (s : State) : State := { State.reset with bus := s.bus }

/-- A write of `v` to a location that is accepted: any location while BUSY = 0 (R85 to R88, R140, R180, R190, R270). -/
def State.accept (s : State) (v : Word) : Location → State
  | .cmd => s.issue v
  | .status => s
  | .ctrl => if v.getLsbD 0 then s.clear else s
  | .rdLen => { s with rdLen := v.setWidth 13, rdPos := 0, status := { s.status with eos := false } }
  | .rdPos => s
  | .wrCap => { s with wrCap := v.setWidth 13, wrTotal := 0, status := { s.status with wfin := false } }
  | .wrTotal => s
  | .pcount => { s with pcount := v.setWidth 9 }
  | .f i => s.writeF i v
  | .coef j => s.writeCoef j v
  | .rdbuf i => { s with rdbuf := s.rdbuf.writeWord i.val v }
  | .wrbuf i => { s with wrbuf := s.wrbuf.writeWord i.val v }
  | .reserved => s

/-- A write that is dropped: the target keeps its value and WBUSY <- 1 (R144). -/
def State.dropWrite (s : State) : State := { s with status := { s.status with wbusy := true } }

/-- MemWrite: while BUSY = 1 a write to any offset other than CTRL is dropped (R144). -/
def State.hostWrite (s : State) (a : WordAddr) (v : Word) : State :=
  if s.status.busy = true ∧ locate a ≠ .ctrl then s.dropWrite else s.accept v (locate a)

end Sys2Proof.Machine
end

