-- ==== Sys2Proof/Machine/Control.lean ====
section
/-! DEFINITION. NOP (40_command_cycle.md R149). There is no control transfer (R150). -/

namespace Sys2Proof.Machine

/-- NOP: no effects; it completes (R149). -/
def execNop (s : State) : Host.Outcome State Fault Refusal := complete s

end Sys2Proof.Machine
end

