-- ==== Sys2Proof/Machine/FieldArith.lean ====
section
/-! DEFINITION. Field adder, subtractor, multiplier and the sampling test: FADD, FSUB, FMUL, FSAMPLE
(44_field_arith.md R200 to R203). -/

namespace Sys2Proof.Machine

/-- Format R3: FIELD_RANGE where F[rs1] ≥ p or F[rs2] ≥ p, else F[rd] <- op(a, b) (R200 to R202). -/
def fieldBinary (op : Nat → Nat → Nat) (rd rs1 rs2 : Reg) (s : State) : Host.Outcome State Fault Refusal :=
  match fieldElement (s.readF rs1) with
  | none => raise .fieldRange s
  | some a =>
    match fieldElement (s.readF rs2) with
    | none => raise .fieldRange s
    | some b => complete (s.writeF rd (wordOf (op a b)))

/-- (a + b) mod p (R200). -/
def fieldAdd (a b : Nat) : Nat := (a + b) % Config.p

/-- (a - b) mod p, the residue in [0, p) also when a < b (R201, 00_scope.md R11). -/
def fieldSub (a b : Nat) : Nat := (((a : Int) - (b : Int)) % (Config.p : Int)).toNat

/-- (a * b) mod p, the full product reduced (R202). -/
def fieldMul (a b : Nat) : Nat := a * b % Config.p

/-- FADD (R200). -/
def execFadd (rd rs1 rs2 : Reg) (s : State) : Host.Outcome State Fault Refusal := fieldBinary fieldAdd rd rs1 rs2 s

/-- FSUB (R201). -/
def execFsub (rd rs1 rs2 : Reg) (s : State) : Host.Outcome State Fault Refusal := fieldBinary fieldSub rd rs1 rs2 s

/-- FMUL (R202). -/
def execFmul (rd rs1 rs2 : Reg) (s : State) : Host.Outcome State Fault Refusal := fieldBinary fieldMul rd rs1 rs2 s

/-- FSAMPLE: bit 31 is discarded; p itself is rejected (REJ <- 1, F[rd] unchanged), anything less is the sample. The
source is any 32-bit word and there is no error (R203). -/
def execFsample (rd rs1 : Reg) (s : State) : Host.Outcome State Fault Refusal :=
  let r := s.readF rs1 &&& 0x7FFFFFFF#32
  if r.toNat ≥ Config.p then complete s.setRej else complete (s.writeF rd r)

end Sys2Proof.Machine
end

