-- ==== Sys2Proof/Machine/Inverse.lean ====
section
/-! DEFINITION. The modular inverse unit: FINV (41_modular_inverse.md R170). -/

namespace Sys2Proof.Machine

/-- The loop of R170 on the remainders (r0, r1) and the Bézout coefficients (t0, t1): while r1 ≠ 0, one division
step. It returns the final r0 and t0. `fuel` bounds the number of steps; each step makes r1 smaller, so that
r1 < fuel is enough (log 7). -/
def euclid : Nat → Nat → Nat → Int → Int → Nat × Int
  | 0, r0, _, t0, _ => (r0, t0)
  | fuel + 1, r0, r1, t0, t1 =>
    if r1 = 0 then (r0, t0)
    else euclid fuel r1 (r0 - r0 / r1 * r1) t1 (t0 - ((r0 / r1 : Nat) : Int) * t1)

/-- The inverse of a mod p: extended Euclid on (p, a); `none` where the gcd is greater than 1 (NOT_INVERTIBLE);
p is added once if the coefficient is negative (R170). -/
def inverse (a : Nat) : Option Nat :=
  let (r0, t0) := euclid (a + 1) Config.p a 0 1
  if r0 > 1 then none else some (if t0 < 0 then t0 + (Config.p : Int) else t0).toNat

/-- FINV: FIELD_RANGE where F[rs1] ≥ p; NOT_INVERTIBLE where gcd(p, a) > 1; else F[rd] <- the inverse (R170). -/
def execFinv (rd rs1 : Reg) (s : State) : Host.Outcome State Fault Refusal :=
  match fieldElement (s.readF rs1) with
  | none => raise .fieldRange s
  | some a =>
    match inverse a with
    | none => raise .notInvertible s
    | some x => complete (s.writeF rd (wordOf x))

end Sys2Proof.Machine
end

