-- ==== Sys2Proof/Machine/Poly.lean ====
section
/-! DEFINITION. Polynomial evaluation and the coefficient store: PEVAL, CZERO, CPUT, CGET (45_poly_eval.md R220 to
R224). -/

namespace Sys2Proof.Machine

/-- The polynomial in use: COEF[0] to COEF[PCOUNT - 1], the constant term first (R220). -/
def State.polynomial (s : State) : List Word := s.coef.toList.take s.pcount.toNat

/-- Horner's rule: y <- (y * x + c) mod p, from the highest coefficient down, y = 0 at the start (R221). -/
def horner (x : Nat) : List Nat → Nat
  | [] => 0
  | c :: cs => (horner x cs * x + c) % Config.p

/-- PEVAL: INVALID_ARGUMENT where PCOUNT is outside [1, 256]; FIELD_RANGE where x ≥ p, or else where a coefficient in
use is ≥ p; else F[rd] <- P(x) (R221). -/
def execPeval (rd rs1 : Reg) (s : State) : Host.Outcome State Fault Refusal :=
  if s.pcount.toNat < 1 ∨ Config.coefDepth < s.pcount.toNat then raise .invalidArgument s
  else
    match fieldElement (s.readF rs1) with
    | none => raise .fieldRange s
    | some x =>
      if s.polynomial.any (fun c => (fieldElement c).isNone) then raise .fieldRange s
      else complete (s.writeF rd (wordOf (horner x (s.polynomial.map (fun c => c.toNat)))))

/-- CZERO: all 256 words, not only those in use (R222). -/
def execCzero (s : State) : Host.Outcome State Fault Refusal := complete s.clearCoef

/-- CPUT: INVALID_ARGUMENT where the index F[rs2] ≥ 256, then FIELD_RANGE where F[rs1] ≥ p; else COEF[j] <- F[rs1]
(R223). -/
def execCput (rs1 rs2 : Reg) (s : State) : Host.Outcome State Fault Refusal :=
  match coefIndex (s.readF rs2) with
  | none => raise .invalidArgument s
  | some j =>
    match fieldElement (s.readF rs1) with
    | none => raise .fieldRange s
    | some _ => complete (s.writeCoef j (s.readF rs1))

/-- CGET: INVALID_ARGUMENT where the index F[rs2] ≥ 256; else F[rd] <- COEF[j], the raw word (R224). -/
def execCget (rd rs2 : Reg) (s : State) : Host.Outcome State Fault Refusal :=
  match coefIndex (s.readF rs2) with
  | none => raise .invalidArgument s
  | some j => complete (s.writeF rd (s.readCoef j))

end Sys2Proof.Machine
end

