-- ==== Sys2Proof/Machine/Reader.lean ====
section
/-! DEFINITION. The bit unpacker: RDBITS (42_bit_reader.md R182). -/

namespace Sys2Proof.Machine

/-- R of R182: the real bits left, 8 * RD_LEN - RD_POS. No run makes it negative (10_state.md R52); in a state that
no run reaches it counts as 0 (log 4). -/
def State.realLeft (s : State) : Nat := 8 * s.rdLen.toNat - s.rdPos.toNat

/-- The padding group of R182: the real bits that are left, a 1, and zeros to the width k. -/
def paddingGroup (real left k : Nat) : Nat := (real <<< (k - left)) ||| (1 <<< (k - left - 1))

/-- RDBITS: INVALID_ARGUMENT for an illegal K, then for RD_LEN > 4096; `None` at the end of the sequence, which is a
result and no error; a group of real bits; or the group that reads past the end, with the padding (R182). -/
def execRdbits (rd : Reg) (k : Nat) (s : State) : Host.Outcome State Fault Refusal :=
  if legalWidth k = false then raise .invalidArgument s
  else if s.rdLen.toNat > Config.bufBytes then raise .invalidArgument s
  else if s.status.eos then complete s.setNone
  else if k ≤ s.realLeft then
    complete ((s.writeF rd (wordOf (s.rdbuf.readBits s.rdPos.toNat k))).setRdPos (s.rdPos.toNat + k))
  else
    complete
      ((s.writeF rd (wordOf (paddingGroup (s.rdbuf.readBits s.rdPos.toNat s.realLeft) s.realLeft k))).setRdPos
        (s.rdPos.toNat + s.realLeft)).setEos

end Sys2Proof.Machine
end

