-- ==== Sys2Proof/Machine/Writer.lean ====
section
/-! DEFINITION. The bit packer: WRBLK and WRFIN (43_bit_writer.md R192, R193). -/

namespace Sys2Proof.Machine

/-- The bit capacity, 8 * WR_CAP (R48). -/
def State.bitCapacity (s : State) : Nat := 8 * s.wrCap.toNat

/-- WRBLK: INVALID_ARGUMENT (K, then WR_CAP), ALREADY_FINALIZED, BUFFER_OVERFLOW, in this order; else the low k bits
of F[rs1] are appended (R192). -/
def execWrblk (rs1 : Reg) (k : Nat) (s : State) : Host.Outcome State Fault Refusal :=
  if legalWidth k = false then raise .invalidArgument s
  else if s.wrCap.toNat > Config.bufBytes then raise .invalidArgument s
  else if s.status.wfin then raise .alreadyFinalized s
  else if s.wrTotal.toNat + k > s.bitCapacity then raise .bufferOverflow s
  else complete (s.append k (lowBits k (s.readF rs1)))

/-- The padding length of a final block v > 0 of width k: tz(v) + 1, at most k (R193, 90_conflicts.md C1). -/
def paddingLength (k v : Nat) : Nat := trailingZeros k v + 1

/-- The effects of WRFIN on a block v of which m = k - pad bits are real: they are appended, WFIN is set, and F[rd]
takes the new WR_TOTAL (R193). -/
def State.finalize (s : State) (rd : Reg) (m u : Nat) : State :=
  (s.append m u).setWfin.writeF rd (wordOf (s.wrTotal.toNat + m))

/-- WRFIN: INVALID_ARGUMENT (K, then WR_CAP), ALREADY_FINALIZED, INVALID_PADDING, BUFFER_OVERFLOW, in this order;
else the block without its padding is appended and the writer is finalized (R193). -/
def execWrfin (rd rs1 : Reg) (k : Nat) (s : State) : Host.Outcome State Fault Refusal :=
  if legalWidth k = false then raise .invalidArgument s
  else if s.wrCap.toNat > Config.bufBytes then raise .invalidArgument s
  else if s.status.wfin then raise .alreadyFinalized s
  else
    let v := lowBits k (s.readF rs1)
    if v = 0 then raise .invalidPadding s
    else
      let pad := paddingLength k v
      if s.wrTotal.toNat + (k - pad) > s.bitCapacity then raise .bufferOverflow s
      else complete (s.finalize rd (k - pad) (v >>> pad))

end Sys2Proof.Machine
end

