-- ==== Sys2Proof/Machine/Dispatch.lean ====
section
/-! DEFINITION. The meaning of each command: its completion step (40_command_cycle.md R141), which runs its checks,
applies its writes at once and clears BUSY. One arm per constructor of Instr. -/

namespace Sys2Proof.Machine

def exec (i : Instr) (s : State) : Host.Outcome State Fault Refusal :=
  match i with
  | .nop => Sys2Proof.Machine.execNop s
  | .finv rd rs1 => Sys2Proof.Machine.execFinv rd rs1 s
  | .rdbits rd k => Sys2Proof.Machine.execRdbits rd k s
  | .wrblk rs1 k => Sys2Proof.Machine.execWrblk rs1 k s
  | .wrfin rd rs1 k => Sys2Proof.Machine.execWrfin rd rs1 k s
  | .fadd rd rs1 rs2 => Sys2Proof.Machine.execFadd rd rs1 rs2 s
  | .fsub rd rs1 rs2 => Sys2Proof.Machine.execFsub rd rs1 rs2 s
  | .fmul rd rs1 rs2 => Sys2Proof.Machine.execFmul rd rs1 rs2 s
  | .fsample rd rs1 => Sys2Proof.Machine.execFsample rd rs1 s
  | .peval rd rs1 => Sys2Proof.Machine.execPeval rd rs1 s
  | .czero => Sys2Proof.Machine.execCzero s
  | .cput rs1 rs2 => Sys2Proof.Machine.execCput rs1 rs2 s
  | .cget rd rs2 => Sys2Proof.Machine.execCget rd rs2 s

end Sys2Proof.Machine
end

