-- ==== Sys2Proof/Machine/Cycle.lean ====
section
/-! DEFINITION. The core's turn and the next move (40_command_cycle.md R141, R143; 60_exceptions.md R252, R261), what
Machine/Step.lean calls. -/

namespace Sys2Proof.Machine

/-- The completion step of the word in CMD: it is decoded now; a word that does not decode is ILLEGAL_COMMAND, and no
other check of it is made (R141, R148). -/
def completion (s : State) : Host.Outcome State Fault Refusal :=
  match decode s.cmd with
  | .ok i => exec i s
  | .error _ => raise .illegalCommand s

/-- The core's turn: the completion step is enabled exactly when BUSY = 1 (R141); otherwise the core is idle and
every piece of state keeps its value (R261). -/
def coreTurn (s : State) : Host.Outcome State Fault Refusal :=
  if s.status.busy then completion s else .next s

/-- The state with the given moves to come. -/
def State.withPending (s : State) (ms : List Move) : State := { s with bus := { s.bus with pending := ms } }

/-- One move of the outside, or the core's turn (R252). -/
def perform (m : Move) (s : State) : Host.Outcome State Fault Refusal :=
  match m with
  | .read a => .next (s.hostRead a)
  | .write a v => .next (s.hostWrite a v)
  | .core => coreTurn s
  | .powerOn => .next s.clear

/-- The next event: the first pending move, which is used up; with none pending it is the core's turn, so that an
issued command is always completed in the end (R143). -/
def nextEvent (s : State) : Host.Outcome State Fault Refusal :=
  match s.bus.pending with
  | [] => coreTurn s
  | m :: ms => perform m (s.withPending ms)

/-- `w` issued to the core, and the core's turn next. Where no move is pending it is the core's turn anyway. -/
def State.withCommand (s : State) (w : Word) : State :=
  (s.issue w).withPending (match s.bus.pending with
    | [] => []
    | m :: ms => .core :: m :: ms)

end Sys2Proof.Machine
end

