-- ==== Sys2Proof/Machine/Step.lean ====
section
/-! DEFINITION. One step of the machine: one atomic event (60_exceptions.md R252); and how the host places a command. -/

namespace Sys2Proof.Machine

/-- One step: the next host transaction, the core's turn, or a reset (R252). -/
def step (s : State) : Host.Outcome State Fault Refusal := nextEvent s

/-- `s` with the command word `w` issued, as the host's write to CMD issues it (40_command_cycle.md R140), and the
core's turn next, so that `step` decodes and runs exactly it. Bits above `nbits` are 0 (log 8). -/
def State.withFetchWord (s : State) (nbits w : Nat) : State := s.withCommand (BitVec.ofNat 32 (w % 2 ^ nbits))

end Sys2Proof.Machine
end

