-- ==== Sys2Proof/Machine/HostProgram.lean ====
section
/-! DEFINITION. The host's notation (30_encoding.md R121), as lists of moves, and what a command line leaves behind. The
host's programs themselves are outside the core (00_scope.md R6, R9). -/

namespace Sys2Proof.Machine

/-- The platform address of an offset of the window: BASE + OFF (R80, R121). -/
def busAddress (off : Nat) : Nat := Config.base + off

/-- `bw OFF, V`: a host bus write (R121). -/
def bw (off : Nat) (v : Word) : List Move := [.write (WordAddr.ofOffset off) v]

/-- `br OFF -> name`: a host bus read (R121). -/
def br (off : Nat) : List Move := [.read (WordAddr.ofOffset off)]

/-- `poll`: reads of STATUS until one returns BUSY = 0, where the completion comes after the first `n` of them (R121,
40_command_cycle.md R143). -/
def poll (n : Nat) : List Move := List.replicate n (.read (WordAddr.ofOffset 0x0004)) ++ [.core] ++ br 0x0004

/-- A command on a line of its own, `ISSUE <command>`: issue it and wait (R121). -/
def commandLine (i : Instr) (n : Nat) : List Move := bw 0x0000 (encode i) ++ poll n

/-- The state that an outcome leaves, and `s` where there is none (which no command reaches). -/
def nextOr (o : Host.Outcome State Fault Refusal) (s : State) : State :=
  match o with
  | .next t => t
  | .fault _ => s
  | .refused _ => s

/-- The state after the command line `i` of an idle core: issue, then completion (R140, R141). -/
def State.after (s : State) (i : Instr) : State := nextOr (exec i (s.issue (encode i))) s

/-- RDBITS into `rd` with each width in turn: the groups with their widths, and the state at the end. -/
def State.readGroups (s : State) (rd : Reg) : List Nat → List (Nat × Word) × State
  | [] => ([], s)
  | k :: ks =>
    ((k, (s.after (.rdbits rd k)).readF rd) :: ((s.after (.rdbits rd k)).readGroups rd ks).1,
      ((s.after (.rdbits rd k)).readGroups rd ks).2)

/-- For each group in turn: the host writes it to `rs`, then WRBLK appends it. -/
def State.writeGroups (s : State) (rs : Reg) : List (Nat × Word) → State
  | [] => s
  | g :: gs => ((s.writeF rs g.2).after (.wrblk rs g.1)).writeGroups rs gs

/-- The host writes the last group to `rs`, then WRFIN finalizes, with the total in `rd`. -/
def State.writeFinal (s : State) (rd rs : Reg) (g : Nat × Word) : State :=
  (s.writeF rs g.2).after (.wrfin rd rs g.1)

end Sys2Proof.Machine
end

