-- ==== Sys2Proof/Safety.lean ====
section
/-! DEFINITION. The terms in which claims are made: what success and failure leave, the bit streams as the spec writes
them, the invariants of 10_state.md R52 and the model's own, and when a run is finished (70_reset_and_hazards.md
R279). -/

namespace Sys2Proof.Machine

/-- `s` after a successful completion with no further effect: BUSY = 0, DONE = 1 (40_command_cycle.md R141). -/
def State.succeeded (s : State) : State :=
  { s with status := { s.status with busy := false, done := true } }

/-- `s` after a failed completion with this ECODE, nothing else written (40_command_cycle.md R142). -/
def State.failedWith (s : State) (code : BitVec 4) : State :=
  { s with status := { s.status with busy := false, done := true, err := true, ecode := code } }

/-- The number in register r. -/
def State.fval (s : State) (r : Reg) : Nat := (s.f.get r).toNat

/-- `s` with the number n in register r. -/
def State.withF (s : State) (r : Reg) (n : Nat) : State := { s with f := s.f.set r.val (BitVec.ofNat 32 n) r.isLt }

/-- The number in coefficient word i, 0 beyond the last one. -/
def State.coefAt (s : State) (i : Nat) : Nat := (s.coef.toList.getD i 0).toNat

/-- Bit n of a buffer's stream as 42_bit_reader.md R181 writes it: `(RB(n div 8) >> (7 - (n mod 8))) & 1`. -/
def Memory.streamBit (m : Memory) (n : Nat) : Nat := ((m.read (n / 8)).toNat >>> (7 - n % 8)) &&& 1

/-- The k stream bits from `pos` on as a number, as 42_bit_reader.md R182 writes it. -/
def Memory.streamBits (m : Memory) (pos k : Nat) : Nat :=
  ((List.range k).map (fun j => m.streamBit (pos + j) <<< (k - 1 - j))).sum

/-- Groups written one after the other as bit strings, as one number. -/
def joinGroups (gs : List (Nat × Word)) : Nat := gs.foldl (fun acc g => acc * 2 ^ g.1 + g.2.toNat) 0

/-- The invariants that 10_state.md R52 lists. -/
structure State.Consistent (s : State) : Prop where
  rdPos_le : s.rdPos.toNat ≤ 8 * s.rdLen.toNat
  eos_at_end : s.status.eos = true → s.rdPos.toNat = 8 * s.rdLen.toNat
  wrTotal_le : s.wrTotal.toNat ≤ 8 * s.wrCap.toNat
  wrTotal_fits : s.wrCap.toNat ≤ 4096 → s.wrTotal.toNat ≤ 32768
  ecode_of_ok : s.status.err = false → s.status.ecode = 0
  busy_not_done : s.status.busy = true → s.status.done = false

/-- What every step keeps: R52, the canonical form of the buffers, the error codes in use (60_exceptions.md R240), what
issue has cleared (40 R140), and that before the first command since reset no command has left a trace (10 R37). -/
structure State.Inv (s : State) : Prop where
  consistent : s.Consistent
  rdbuf_wf : s.rdbuf.wf
  wrbuf_wf : s.wrbuf.wf
  ecode_of_err : s.status.err = true → 1 ≤ s.status.ecode.toNat ∧ s.status.ecode.toNat ≤ 7
  busy_cleared : s.status.busy = true → s.status.err = false ∧ s.status.none = false ∧ s.status.rej = false
  one_result : s.status.err = true → s.status.none = false ∧ s.status.rej = false
  none_not_rej : s.status.none = true → s.status.rej = false
  long_read : 4096 < s.rdLen.toNat → s.rdPos = 0 ∧ s.status.eos = false
  long_write : 4096 < s.wrCap.toNat → s.wrTotal = 0 ∧ s.status.wfin = false
  fresh : s.status.busy = false → s.status.done = false →
    s.cmd = 0 ∧ s.status = Status.reset ∧ s.rdPos = 0 ∧ s.wrTotal = 0

/-- A run is finished when the host has no more moves and no command is in flight (70_reset_and_hazards.md R279). -/
def State.finished (s : State) : Prop := s.bus.pending = [] ∧ s.status.busy = false

/-- A host transaction other than a write to CTRL: what the host can do in a BUSY interval without ending it
(40_command_cycle.md R144, R145). -/
def Move.harmless : Move → Bool
  | .read _ => true
  | .write a _ => a.offset != 0x0008
  | .core => false
  | .powerOn => false

/-- A host write. -/
def Move.isWrite : Move → Bool
  | .read _ => false
  | .write _ _ => true
  | .core => false
  | .powerOn => false

end Sys2Proof.Machine
end

