-- ==== Sys2Proof/Certificates/Slice0/Obligations.lean ====
section
/-! DEFINITION. The statements for the provers. Each docstring names the rule of spec/ that it formalises, or says what it
is derived from. A "turn" of the core is a state whose next event is the core's: no move is pending, or the first one is
`core`. -/

open Sys2Proof Sys2Proof.Machine

/-! ## Encoding -/

/-- 30_encoding.md R116 and R119: for each of the thirteen rows of the opcode map, a word w decodes to the row's command,
with the fields of R111 as its operands, exactly when (w & mask) == match. -/
def Obligations.WordsMatchingARowDecodeToIt : Prop :=
  ∀ w : Word,
    (w &&& 0xFFFFFFFF = 0x00000000 ↔ decode w = .ok .nop) ∧
    (w &&& 0xFF00FFFF = 0x01000000 ↔ decode w = .ok (.finv (rdField w) (rs1Field w))) ∧
    (w &&& 0xFF0FFFC0 = 0x02000000 ↔ decode w = .ok (.rdbits (rdField w) (kField w))) ∧
    (w &&& 0xFFF0FFC0 = 0x03000000 ↔ decode w = .ok (.wrblk (rs1Field w) (kField w))) ∧
    (w &&& 0xFF00FFC0 = 0x04000000 ↔ decode w = .ok (.wrfin (rdField w) (rs1Field w) (kField w))) ∧
    (w &&& 0xFF000FFF = 0x05000000 ↔ decode w = .ok (.fadd (rdField w) (rs1Field w) (rs2Field w))) ∧
    (w &&& 0xFF000FFF = 0x06000000 ↔ decode w = .ok (.fsub (rdField w) (rs1Field w) (rs2Field w))) ∧
    (w &&& 0xFF000FFF = 0x07000000 ↔ decode w = .ok (.fmul (rdField w) (rs1Field w) (rs2Field w))) ∧
    (w &&& 0xFF00FFFF = 0x08000000 ↔ decode w = .ok (.fsample (rdField w) (rs1Field w))) ∧
    (w &&& 0xFF00FFFF = 0x09000000 ↔ decode w = .ok (.peval (rdField w) (rs1Field w))) ∧
    (w &&& 0xFFFFFFFF = 0x0A000000 ↔ decode w = .ok .czero) ∧
    (w &&& 0xFFF00FFF = 0x0B000000 ↔ decode w = .ok (.cput (rs1Field w) (rs2Field w))) ∧
    (w &&& 0xFF0F0FFF = 0x0C000000 ↔ decode w = .ok (.cget (rdField w) (rs2Field w)))

/-- 30_encoding.md R111: the command word is OPC, RD, RS1, RS2, RSV and K, from bit 31 down, with these widths. -/
def Obligations.CommandWordIsItsSixFields : Prop :=
  ∀ w : Word,
    (opcField w).toNat = w.toNat / 2 ^ 24 ∧ (rdField w).val = w.toNat / 2 ^ 20 % 16 ∧
    (rs1Field w).val = w.toNat / 2 ^ 16 % 16 ∧ (rs2Field w).val = w.toNat / 2 ^ 12 % 16 ∧
    (rsvField w).toNat = w.toNat / 2 ^ 6 % 64 ∧ kField w = w.toNat % 64

/-- Every well-formed command, with every operand it can have, decodes from its own word. -/
def Obligations.DecodeOfEncodeIsTheCommand : Prop :=
  ∀ i : Instr, i.wf = true → decode (encode i) = .ok i

/-- The other direction: a word that decodes to a command is that command's word and no other (R117, R118: every word's
meaning is unique). -/
def Obligations.EncodeOfDecodeIsTheWord : Prop :=
  ∀ (w : Word) (i : Instr), decode w = .ok i → i.wf = true ∧ encode i = w

/-- Words written out from the assembler table of 30_encoding.md R120 and the examples of 95_test_vectors.md. -/
def Obligations.ExampleWordsDecode : Prop :=
  decode 0x00000000 = .ok .nop ∧ decode 0x01210000 = .ok (.finv 2 1) ∧ decode 0x0210001E = .ok (.rdbits 1 30) ∧
  decode 0x0307001E = .ok (.wrblk 7 30) ∧ decode 0x0497001E = .ok (.wrfin 9 7 30) ∧
  decode 0x05312000 = .ok (.fadd 3 1 2) ∧ decode 0x06321000 = .ok (.fsub 3 2 1) ∧
  decode 0x07BBC000 = .ok (.fmul 11 11 12) ∧ decode 0x08430000 = .ok (.fsample 4 3) ∧
  decode 0x09650000 = .ok (.peval 6 5) ∧ decode 0x0A000000 = .ok .czero ∧ decode 0x0B042000 = .ok (.cput 4 2) ∧
  decode 0x0C102000 = .ok (.cget 1 2)

/-- 30_encoding.md R115: every field a command's format does not use, and RSV, is zero in a word that decodes to it. -/
def Obligations.UnusedFieldsAreZero : Prop :=
  ∀ (w : Word) (i : Instr), decode w = .ok i →
    rsvField w = 0 ∧
    (i = .nop ∨ i = .czero → rdField w = 0 ∧ rs1Field w = 0 ∧ rs2Field w = 0 ∧ kField w = 0) ∧
    (∀ rd rs1, i = .finv rd rs1 ∨ i = .fsample rd rs1 ∨ i = .peval rd rs1 → rs2Field w = 0 ∧ kField w = 0) ∧
    (∀ rd k, i = .rdbits rd k → rs1Field w = 0 ∧ rs2Field w = 0) ∧
    (∀ rs1 k, i = .wrblk rs1 k → rdField w = 0 ∧ rs2Field w = 0) ∧
    (∀ rd rs1 k, i = .wrfin rd rs1 k → rs2Field w = 0) ∧
    (∀ rd rs1 rs2, i = .fadd rd rs1 rs2 ∨ i = .fsub rd rs1 rs2 ∨ i = .fmul rd rs1 rs2 → kField w = 0) ∧
    (∀ rs1 rs2, i = .cput rs1 rs2 → rdField w = 0 ∧ kField w = 0) ∧
    (∀ rd rs2, i = .cget rd rs2 → rs1Field w = 0 ∧ kField w = 0)

/-- 30_encoding.md R113: K is bits 5:0 zero-extended; all 64 values decode; RDBITS, WRBLK and WRFIN with K = 0 or K in
33 to 63 decode normally and complete with INVALID_ARGUMENT (2). -/
def Obligations.EveryWidthDecodesAndOnlyOneToThirtyTwoAreLegal : Prop :=
  (∀ w : Word, kField w = (w.extractLsb' 0 6).toNat) ∧
  ∀ (k : Nat) (rd rs : Reg) (s : State), k < 64 →
    decode (encode (.rdbits rd k)) = .ok (.rdbits rd k) ∧ decode (encode (.wrblk rs k)) = .ok (.wrblk rs k) ∧
    decode (encode (.wrfin rd rs k)) = .ok (.wrfin rd rs k) ∧
    (k = 0 ∨ 33 ≤ k → exec (.rdbits rd k) s = .next (s.failedWith 2) ∧ exec (.wrblk rs k) s = .next (s.failedWith 2) ∧
      exec (.wrfin rd rs k) s = .next (s.failedWith 2))

/-! ## Reset, invariants, runs -/

/-- 70_reset_and_hazards.md R271: what every piece of state is, through the model's own reads, in the state after reset and
after a step that is a power-on reset or a soft reset, a command in flight or not: it is abandoned, and DONE is 0. -/
def Obligations.ResetLeavesEverythingZero : Prop :=
  ∀ t : State,
    t = State.reset ∨
      (∃ s ms, step s = .next t ∧ (s.bus.pending = .powerOn :: ms ∨
        ∃ v : Word, v.getLsbD 0 = true ∧ s.bus.pending = .write (WordAddr.ofOffset 0x0008) v :: ms)) →
    (∀ r, t.readF r = 0) ∧ (∀ j, t.readCoef j = 0) ∧ (∀ a, t.rdbuf.read a = 0) ∧ (∀ a, t.wrbuf.read a = 0) ∧
    t.cmd = 0 ∧ t.status.word = 0 ∧ t.status.busy = false ∧ t.status.done = false ∧ t.valueAt .ctrl = 0 ∧
    t.rdLen = 0 ∧ t.rdPos = 0 ∧ t.wrCap = 0 ∧ t.wrTotal = 0 ∧ t.pcount = 0

/-- The reset state meets the invariant. -/
def Obligations.ResetMeetsTheInvariant : Prop := State.reset.Inv

/-- Every step keeps the invariant: 10_state.md R52, the canonical form of both buffers, the error codes in use, what
issue has cleared, and that nothing has happened before the first command since reset. -/
def Obligations.EveryStepKeepsTheInvariant : Prop :=
  ∀ s t : State, s.Inv → step s = .next t → t.Inv

/-- 10_state.md R52: its invariants hold in every state that a run from reset reaches, whatever the host does and however
its transactions interleave with the completions. -/
def Obligations.ReachableStatesAreConsistent : Prop :=
  ∀ (ms : List Move) (n : Nat) (t : State), Sys2Proof.core.run n (State.reset.withPending ms) = .next t →
    t.rdPos.toNat ≤ 8 * t.rdLen.toNat ∧ (t.status.eos = true → t.rdPos.toNat = 8 * t.rdLen.toNat) ∧
    t.wrTotal.toNat ≤ 8 * t.wrCap.toNat ∧ (t.wrCap.toNat ≤ 4096 → t.wrTotal.toNat ≤ 32768) ∧
    (t.status.err = false → t.status.ecode = 0) ∧ (t.status.busy = true → t.status.done = false)

/-- 60_exceptions.md R253, R254, R261: no step ever stops the machine. -/
def Obligations.NoStepStopsTheMachine : Prop := ∀ s : State, ∃ t, step s = .next t

/-- 40_command_cycle.md R143 and 70_reset_and_hazards.md R279: every run finishes, at the latest one step after the host's
last move, with no command in flight; from then on nothing changes. -/
def Obligations.EveryRunFinishes : Prop :=
  ∀ s : State, ∃ t, Sys2Proof.core.run (s.bus.pending.length + 1) s = .next t ∧ t.finished ∧ step t = .next t

/-- 40_command_cycle.md R141: at the core's turn with a command in flight, the step is `exec` of the command that CMD
decodes to, at that state, the used-up turn apart. -/
def Obligations.StepRunsTheDecodedCommand : Prop :=
  ∀ (s : State) (i : Instr), s.status.busy = true → decode s.cmd = .ok i →
    (s.bus.pending = [] → step s = exec i s) ∧
    (∀ ms, s.bus.pending = .core :: ms → step s = exec i (s.withPending ms))

/-- 60_exceptions.md R242, 30_encoding.md R117 and R118: at the core's turn, in both its forms (no move is pending, and
then ms = []; or the first one is `core`), a word with an undefined opcode, or with a defined one and a 1 where its mask
requires 0, completes with ILLEGAL_COMMAND (1) and writes nothing but STATUS; no word that decodes does so. -/
def Obligations.OtherWordsCompleteWithIllegalCommand : Prop :=
  (∀ (s : State) (ms : List Move), s.status.busy = true →
    (s.bus.pending = [] ∧ ms = []) ∨ s.bus.pending = .core :: ms →
    (0x0D ≤ (opcField s.cmd).toNat → step s = .next ((s.withPending ms).failedWith 1)) ∧
    (∀ r ∈ [((0x00 : BitVec 8), (0xFFFFFFFF : Word)), (0x01, 0xFF00FFFF), (0x02, 0xFF0FFFC0), (0x03, 0xFFF0FFC0),
        (0x04, 0xFF00FFC0), (0x05, 0xFF000FFF), (0x06, 0xFF000FFF), (0x07, 0xFF000FFF), (0x08, 0xFF00FFFF),
        (0x09, 0xFF00FFFF), (0x0A, 0xFFFFFFFF), (0x0B, 0xFFF00FFF), (0x0C, 0xFF0F0FFF)],
      opcField s.cmd = r.1 → s.cmd &&& r.2 &&& 0x00FFFFFF ≠ 0 → step s = .next ((s.withPending ms).failedWith 1))) ∧
  (∀ (i : Instr) (s t : State), s.status.err = false → s.status.ecode = 0 → exec i s = .next t → t.status.ecode ≠ 1)

/-- 60_exceptions.md R261: while BUSY = 0 and the host does nothing, every piece of state keeps its value. -/
def Obligations.IdleCoreKeepsItsState : Prop :=
  ∀ s : State, s.status.busy = false →
    (s.bus.pending = [] → step s = .next s) ∧
    (∀ ms, s.bus.pending = .core :: ms → step s = .next (s.withPending ms))

/-! ## Host transactions -/

/-- 40_command_cycle.md R140: the whole effect of a write to CMD while BUSY = 0; the word is not checked. -/
def Obligations.WriteToCmdIssues : Prop :=
  ∀ (s : State) (w : Word) (ms : List Move), s.status.busy = false →
    s.bus.pending = .write (WordAddr.ofOffset 0x0000) w :: ms →
    step s = .next { s with
      cmd := w
      status := { s.status with
        busy := true, done := false, err := false, ecode := 0, none := false, rej := false, wbusy := false }
      bus := { s.bus with pending := ms } }

/-- 40_command_cycle.md R144: while BUSY = 1, a write to any offset other than CTRL is dropped and sets WBUSY, one to CMD
too; a write to CTRL is performed, and with bit 0 = 1 it aborts the command in flight: all state as after reset. -/
def Obligations.WriteWhileBusyIsDropped : Prop :=
  ∀ (s : State) (a : WordAddr) (v : Word) (ms : List Move), s.status.busy = true → s.bus.pending = .write a v :: ms →
    (a.offset ≠ 0x0008 → step s = .next { s with
      status := { s.status with wbusy := true }
      bus := { s.bus with pending := ms } }) ∧
    (a.offset = 0x0008 → v.getLsbD 0 = true →
      step s = .next { State.reset with bus := { s.bus with pending := ms } }) ∧
    (a.offset = 0x0008 → v.getLsbD 0 = false → step s = .next { s with bus := { s.bus with pending := ms } })

/-- 70_reset_and_hazards.md R270 and R272: a write to CTRL with bit 0 = 1, whatever BUSY and its bits 31:1 are, and
power-on, give the state after reset in one step; a write with bit 0 = 0 has no effect. -/
def Obligations.BothResetsGiveTheResetState : Prop :=
  ∀ (s : State) (v : Word) (ms : List Move),
    (s.bus.pending = .write (WordAddr.ofOffset 0x0008) v :: ms → v.getLsbD 0 = true →
      step s = .next { State.reset with bus := { s.bus with pending := ms } }) ∧
    (s.bus.pending = .powerOn :: ms → step s = .next { State.reset with bus := { s.bus with pending := ms } }) ∧
    (s.bus.pending = .write (WordAddr.ofOffset 0x0008) v :: ms → v.getLsbD 0 = false →
      step s = .next (s.withPending ms))

/-- 20_memory.md R86 (with R82, R87, R88): the word that a read of each offset returns while BUSY = 0. Reads have no side
effects (R85): only the bus's own record of the read changes. -/
def Obligations.IdleReadReturnsTheLocation : Prop :=
  ∀ (s : State) (a : WordAddr) (ms : List Move), s.status.busy = false → s.bus.pending = .read a :: ms →
    ∃ v : Word, step s = .next { s with bus := { s.bus with pending := ms, rdata := v } } ∧
      (a.offset = 0x0000 → v = s.cmd) ∧ (a.offset = 0x0004 → v = s.status.word) ∧ (a.offset = 0x0008 → v = 0) ∧
      (a.offset = 0x000C → v.toNat = s.rdLen.toNat) ∧ (a.offset = 0x0010 → v.toNat = s.rdPos.toNat) ∧
      (a.offset = 0x0014 → v.toNat = s.wrCap.toNat) ∧ (a.offset = 0x0018 → v.toNat = s.wrTotal.toNat) ∧
      (a.offset = 0x001C → v.toNat = s.pcount.toNat) ∧
      (∀ i : Fin 16, a.offset = 0x0040 + 4 * i.val → v = s.readF i) ∧
      (∀ j : Fin 256, a.offset = 0x0400 + 4 * j.val → v = s.readCoef j) ∧
      (∀ i < 1024, a.offset = 0x1000 + 4 * i → v =
        s.rdbuf.read (4 * i) ++ s.rdbuf.read (4 * i + 1) ++ s.rdbuf.read (4 * i + 2) ++ s.rdbuf.read (4 * i + 3)) ∧
      (∀ i < 1024, a.offset = 0x2000 + 4 * i → v =
        s.wrbuf.read (4 * i) ++ s.wrbuf.read (4 * i + 1) ++ s.wrbuf.read (4 * i + 2) ++ s.wrbuf.read (4 * i + 3)) ∧
      ((0x0020 ≤ a.offset ∧ a.offset ≤ 0x003C) ∨ (0x0080 ≤ a.offset ∧ a.offset ≤ 0x03FC) ∨
        (0x0800 ≤ a.offset ∧ a.offset ≤ 0x0FFC) ∨ 0x3000 ≤ a.offset → v = 0)

/-- 40_command_cycle.md R145: while BUSY = 1 a read of STATUS or CMD returns its current value; a read of any other offset
returns some word, which nothing here fixes; no read changes any state of the core. -/
def Obligations.ReadWhileBusyChangesNothing : Prop :=
  ∀ (s : State) (a : WordAddr) (ms : List Move), s.status.busy = true → s.bus.pending = .read a :: ms →
    ∃ (v : Word) (n : Nat), step s = .next { s with bus := ⟨ms, v, n⟩ } ∧
      (a.offset = 0x0000 → v = s.cmd) ∧ (a.offset = 0x0004 → v = s.status.word)

/-- 42_bit_reader.md R180: a write to RD_LEN while BUSY = 0 stores its bits 12:0 and restarts the reader; RDBUF, and all
else, keeps its value. -/
def Obligations.WriteToRdLenRestartsTheReader : Prop :=
  ∀ (s : State) (v : Word) (ms : List Move), s.status.busy = false →
    s.bus.pending = .write (WordAddr.ofOffset 0x000C) v :: ms →
    step s = .next { s with
      rdLen := BitVec.ofNat 13 (v.toNat % 8192)
      rdPos := 0
      status := { s.status with eos := false }
      bus := { s.bus with pending := ms } }

/-- 43_bit_writer.md R190: a write to WR_CAP while BUSY = 0 stores its bits 12:0 and restarts the writer; WRBUF, and all
else, keeps its value. -/
def Obligations.WriteToWrCapRestartsTheWriter : Prop :=
  ∀ (s : State) (v : Word) (ms : List Move), s.status.busy = false →
    s.bus.pending = .write (WordAddr.ofOffset 0x0014) v :: ms →
    step s = .next { s with
      wrCap := BitVec.ofNat 13 (v.toNat % 8192)
      wrTotal := 0
      status := { s.status with wfin := false }
      bus := { s.bus with pending := ms } }

/-- 20_memory.md R86 (with R82): a write of an idle core to PCOUNT, Fi, COEF[j] or a buffer word stores the value there
and does nothing else: every other register, word and byte keeps its value. -/
def Obligations.IdleWriteStoresOnlyThere : Prop :=
  ∀ (s : State) (a : WordAddr) (v : Word) (ms : List Move), s.status.busy = false → s.rdbuf.wf → s.wrbuf.wf →
    s.bus.pending = .write a v :: ms →
    (a.offset = 0x001C → step s = .next { s.withPending ms with pcount := BitVec.ofNat 9 (v.toNat % 512) }) ∧
    (∀ i : Fin 16, a.offset = 0x0040 + 4 * i.val →
      step s = .next { s.withPending ms with f := s.f.set i.val v i.isLt }) ∧
    (∀ j : Fin 256, a.offset = 0x0400 + 4 * j.val →
      step s = .next { s.withPending ms with coef := s.coef.set j.val v j.isLt }) ∧
    (∀ i < 1024, a.offset = 0x1000 + 4 * i → ∃ m : Memory, step s = .next { s.withPending ms with rdbuf := m } ∧ m.wf ∧
      m.read (4 * i) = v.extractLsb' 24 8 ∧ m.read (4 * i + 1) = v.extractLsb' 16 8 ∧
      m.read (4 * i + 2) = v.extractLsb' 8 8 ∧ m.read (4 * i + 3) = v.extractLsb' 0 8 ∧
      ∀ b, b < 4 * i ∨ 4 * i + 3 < b → m.read b = s.rdbuf.read b) ∧
    (∀ i < 1024, a.offset = 0x2000 + 4 * i → ∃ m : Memory, step s = .next { s.withPending ms with wrbuf := m } ∧ m.wf ∧
      m.read (4 * i) = v.extractLsb' 24 8 ∧ m.read (4 * i + 1) = v.extractLsb' 16 8 ∧
      m.read (4 * i + 2) = v.extractLsb' 8 8 ∧ m.read (4 * i + 3) = v.extractLsb' 0 8 ∧
      ∀ b, b < 4 * i ∨ 4 * i + 3 < b → m.read b = s.wrbuf.read b)

/-- 20_memory.md R88, and the write half of R87: with BUSY = 0 a write to STATUS, RD_POS, WR_TOTAL or a reserved offset is
ignored, and a read of CTRL returns 0. -/
def Obligations.ReadOnlyAndReservedWritesAreIgnored : Prop :=
  ∀ (s : State) (a : WordAddr) (v : Word) (ms : List Move), s.status.busy = false →
    (s.bus.pending = .write a v :: ms →
      a.offset = 0x0004 ∨ a.offset = 0x0010 ∨ a.offset = 0x0018 ∨ (0x0020 ≤ a.offset ∧ a.offset ≤ 0x003C) ∨
        (0x0080 ≤ a.offset ∧ a.offset ≤ 0x03FC) ∨ (0x0800 ≤ a.offset ∧ a.offset ≤ 0x0FFC) ∨ 0x3000 ≤ a.offset →
      step s = .next (s.withPending ms)) ∧
    (s.bus.pending = .read (WordAddr.ofOffset 0x0008) :: ms →
      step s = .next { s with bus := { s.bus with pending := ms, rdata := 0 } })

/-- 20_memory.md R89: with BUSY = 0 a read returns what the latest write to that location stored: two steps, a write and
a read of the same offset. Reserved register bits read 0 (R87). -/
def Obligations.ReadReturnsTheLatestWrite : Prop :=
  ∀ (s : State) (a : WordAddr) (v : Word) (ms : List Move), s.status.busy = false → s.rdbuf.wf → s.wrbuf.wf →
    s.bus.pending = .write a v :: .read a :: ms → a.offset ≠ 0x0000 → a.offset ≠ 0x0008 →
    ∃ t, Sys2Proof.core.run 2 s = .next t ∧ t.bus.pending = ms ∧
      ((0x0040 ≤ a.offset ∧ a.offset ≤ 0x007C) ∨ (0x0400 ≤ a.offset ∧ a.offset ≤ 0x07FC) ∨
        (0x1000 ≤ a.offset ∧ a.offset ≤ 0x2FFC) → t.bus.rdata = v) ∧
      (a.offset = 0x000C ∨ a.offset = 0x0014 → t.bus.rdata = v &&& 0x1FFF) ∧
      (a.offset = 0x001C → t.bus.rdata = v &&& 0x1FF)

/-- 10_state.md R35: the layout of STATUS, bit by bit. -/
def Obligations.StatusWordLayout : Prop :=
  ∀ st : Status,
    st.word.getLsbD 0 = st.busy ∧ st.word.getLsbD 1 = st.done ∧ st.word.getLsbD 2 = st.err ∧
    st.word.getLsbD 3 = false ∧ st.word.extractLsb' 4 4 = st.ecode ∧ st.word.getLsbD 8 = st.none ∧
    st.word.getLsbD 9 = st.rej ∧ st.word.getLsbD 10 = st.wbusy ∧ st.word.getLsbD 11 = false ∧
    st.word.getLsbD 12 = st.eos ∧ st.word.getLsbD 13 = st.wfin ∧ ∀ n, 14 ≤ n → st.word.getLsbD n = false

/-- 30_encoding.md R121, 20_memory.md R90: a command line on an idle core, whatever number n of polls comes before the
completion: after n + 3 steps the host has read the STATUS of the completed command, and the state is what the command
leaves. -/
def Obligations.CommandLineRunsTheCommand : Prop :=
  ∀ (s : State) (i : Instr) (n : Nat) (rest : List Move), i.wf = true → s.status.busy = false →
    s.bus.pending = commandLine i n ++ rest →
    ∃ t, exec i { s with
        cmd := encode i
        status := { s.status with
          busy := true, done := false, err := false, ecode := 0, none := false, rej := false, wbusy := false } } = .next t ∧
      t.status.busy = false ∧ t.status.done = true ∧
      Sys2Proof.core.run (n + 3) s = .next { t with bus := ⟨rest, t.status.word, s.bus.draws⟩ }

/-- 40_command_cycle.md R146 (with R144, R145): whatever the host does in a BUSY interval short of a write to CTRL, the
state at the completion equals the state at issue except for STATUS, where only WBUSY differs, and is set exactly when
the host wrote. -/
def Obligations.BusyIntervalChangesOnlyWbusy : Prop :=
  ∀ (ms rest : List Move) (s : State), s.status.busy = true → (∀ m ∈ ms, m.harmless = true) →
    s.bus.pending = ms ++ rest →
    ∃ (v : Word) (n : Nat), Sys2Proof.core.run ms.length s = .next { s with
      status := { s.status with wbusy := s.status.wbusy || ms.any Move.isWrite }
      bus := ⟨rest, v, n⟩ }

/-! ## Errors -/

/-- 40_command_cycle.md R142: a command that raises an error writes nothing but ERR, ECODE, BUSY and DONE. From a state as
issue leaves it (ERR = 0), a completion with ERR = 1 differs from it in nothing else, and the code is one of 1 to 7. -/
def Obligations.FailureWritesNothingElse : Prop :=
  ∀ (i : Instr) (s t : State), s.status.err = false → exec i s = .next t → t.status.err = true →
    ∃ code : BitVec 4, 1 ≤ code.toNat ∧ code.toNat ≤ 7 ∧
      t = { s with status := { s.status with busy := false, done := true, err := true, ecode := code } }

/-- 60_exceptions.md R241: the STATUS word after a failure of an issued command: 0x00000006 | code << 4, with EOS, WFIN and
WBUSY as they are, and CMD still the failing word. -/
def Obligations.StatusWordAfterFailure : Prop :=
  ∀ (i : Instr) (s t : State), s.status.err = false → s.status.none = false → s.status.rej = false →
    exec i s = .next t → t.status.err = true →
    t.cmd = s.cmd ∧
    t.status.word = 0x00000006#32 ||| (t.status.ecode.setWidth 32 <<< 4) |||
      (if s.status.eos then 0x1000#32 else 0) ||| (if s.status.wfin then 0x2000#32 else 0) |||
      (if s.status.wbusy then 0x0400#32 else 0)

/-- 60_exceptions.md R254 and 40_command_cycle.md R149: after any error a NOP leaves STATUS with DONE alone of its
per-command fields, and changes nothing else but CMD: issue and completion, two steps. -/
def Obligations.NopClearsAStaleError : Prop :=
  ∀ (s : State) (ms : List Move), s.status.busy = false →
    s.bus.pending = .write (WordAddr.ofOffset 0x0000) 0x00000000 :: .core :: ms →
    Sys2Proof.core.run 2 s = .next { s with
      cmd := 0
      status := ⟨false, true, false, 0, false, false, false, s.status.eos, s.status.wfin⟩
      bus := { s.bus with pending := ms } }

/-! ## The commands: result, errors in order, completion -/

/-- 40_command_cycle.md R149: NOP is 0x00000000 exactly; it completes with no effects. -/
def Obligations.NopCompletes : Prop :=
  (∀ w : Word, decode w = .ok .nop ↔ w = 0x00000000) ∧ ∀ s : State, exec .nop s = .next s.succeeded

/-- 41_modular_inverse.md R171, with R170's encoding and errors: FIELD_RANGE (3) where F[rs1] ≥ p; NOT_INVERTIBLE (4) where
it is 0 (60 R245); otherwise F[rd] takes the one x in [1, p) with (a * x) mod p = 1, and nothing else but STATUS
changes. -/
def Obligations.FinvGivesTheInverse : Prop :=
  (∀ w : Word, w &&& 0xFF00FFFF = 0x01000000 → decode w = .ok (.finv (rdField w) (rs1Field w))) ∧
  ∀ (rd rs1 : Reg) (s : State),
    (Config.p ≤ s.fval rs1 → exec (.finv rd rs1) s = .next (s.failedWith 3)) ∧
    (s.fval rs1 = 0 → exec (.finv rd rs1) s = .next (s.failedWith 4)) ∧
    (0 < s.fval rs1 → s.fval rs1 < Config.p →
      ∃ x, 0 < x ∧ x < Config.p ∧ s.fval rs1 * x % Config.p = 1 ∧
        (∀ y < Config.p, s.fval rs1 * y % Config.p = 1 → y = x) ∧
        exec (.finv rd rs1) s = .next (s.withF rd x).succeeded)

/-- 44_field_arith.md R200: FADD. Its encoding; FIELD_RANGE (3) where an operand is ≥ p; otherwise
F[rd] <- (a + b) mod p. -/
def Obligations.FaddAddsModP : Prop :=
  (∀ w : Word, w &&& 0xFF000FFF = 0x05000000 → decode w = .ok (.fadd (rdField w) (rs1Field w) (rs2Field w))) ∧
  ∀ (rd rs1 rs2 : Reg) (s : State),
    (Config.p ≤ s.fval rs1 ∨ Config.p ≤ s.fval rs2 → exec (.fadd rd rs1 rs2) s = .next (s.failedWith 3)) ∧
    (s.fval rs1 < Config.p → s.fval rs2 < Config.p →
      exec (.fadd rd rs1 rs2) s = .next (s.withF rd ((s.fval rs1 + s.fval rs2) % Config.p)).succeeded)

/-- 44_field_arith.md R201: FSUB. Its encoding; FIELD_RANGE (3) where an operand is ≥ p; otherwise F[rd] <- (a - b) mod p,
the residue in [0, p) also when a < b. -/
def Obligations.FsubSubtractsModP : Prop :=
  (∀ w : Word, w &&& 0xFF000FFF = 0x06000000 → decode w = .ok (.fsub (rdField w) (rs1Field w) (rs2Field w))) ∧
  ∀ (rd rs1 rs2 : Reg) (s : State),
    (Config.p ≤ s.fval rs1 ∨ Config.p ≤ s.fval rs2 → exec (.fsub rd rs1 rs2) s = .next (s.failedWith 3)) ∧
    (s.fval rs1 < Config.p → s.fval rs2 < Config.p →
      ∃ d, d < Config.p ∧ ((d : Int) = ((s.fval rs1 : Int) - s.fval rs2) % Config.p) ∧
        exec (.fsub rd rs1 rs2) s = .next (s.withF rd d).succeeded)

/-- 44_field_arith.md R202: FMUL. Its encoding; FIELD_RANGE (3) where an operand is ≥ p; otherwise
F[rd] <- (a * b) mod p, the full product reduced. -/
def Obligations.FmulMultipliesModP : Prop :=
  (∀ w : Word, w &&& 0xFF000FFF = 0x07000000 → decode w = .ok (.fmul (rdField w) (rs1Field w) (rs2Field w))) ∧
  ∀ (rd rs1 rs2 : Reg) (s : State),
    (Config.p ≤ s.fval rs1 ∨ Config.p ≤ s.fval rs2 → exec (.fmul rd rs1 rs2) s = .next (s.failedWith 3)) ∧
    (s.fval rs1 < Config.p → s.fval rs2 < Config.p →
      exec (.fmul rd rs1 rs2) s = .next (s.withF rd (s.fval rs1 * s.fval rs2 % Config.p)).succeeded)

/-- 44_field_arith.md R203: FSAMPLE. Its encoding; bit 31 is discarded; where the rest is p, REJ <- 1 and F[rd] is
unchanged; otherwise F[rd] takes it. There is no error. -/
def Obligations.FsampleMasksAndRejects : Prop :=
  (∀ w : Word, w &&& 0xFF00FFFF = 0x08000000 → decode w = .ok (.fsample (rdField w) (rs1Field w))) ∧
  ∀ (rd rs1 : Reg) (s : State),
    (Config.p ≤ s.fval rs1 % 2 ^ 31 → exec (.fsample rd rs1) s =
      .next { s with status := { s.status with busy := false, done := true, rej := true } }) ∧
    (s.fval rs1 % 2 ^ 31 < Config.p → exec (.fsample rd rs1) s = .next (s.withF rd (s.fval rs1 % 2 ^ 31)).succeeded)

/-- 42_bit_reader.md R182 (with R181): RDBITS. Its encoding; INVALID_ARGUMENT (2) for an illegal k, then for
RD_LEN > 4096; NONE where EOS = 1; a group of k real bits; or the group with the padding, which sets EOS. RD_POS is at
most 8 * RD_LEN, as in every state that a run reaches (R52). -/
def Obligations.RdbitsReadsThePaddedStream : Prop :=
  (∀ w : Word, w &&& 0xFF0FFFC0 = 0x02000000 → decode w = .ok (.rdbits (rdField w) (kField w))) ∧
  ∀ (rd : Reg) (k : Nat) (s : State),
    (k = 0 ∨ 32 < k → exec (.rdbits rd k) s = .next (s.failedWith 2)) ∧
    (1 ≤ k → k ≤ 32 → 4096 < s.rdLen.toNat → exec (.rdbits rd k) s = .next (s.failedWith 2)) ∧
    (1 ≤ k → k ≤ 32 → s.rdLen.toNat ≤ 4096 → s.status.eos = true → exec (.rdbits rd k) s =
      .next { s with status := { s.status with busy := false, done := true, none := true } }) ∧
    (1 ≤ k → k ≤ 32 → s.rdLen.toNat ≤ 4096 → s.status.eos = false → s.rdPos.toNat + k ≤ 8 * s.rdLen.toNat →
      exec (.rdbits rd k) s = .next
        { (s.withF rd (s.rdbuf.streamBits s.rdPos.toNat k)).succeeded with
          rdPos := BitVec.ofNat 16 (s.rdPos.toNat + k) } ∧
      s.rdPos.toNat + k < 2 ^ 16 ∧ s.rdbuf.streamBits s.rdPos.toNat k < 2 ^ k) ∧
    (1 ≤ k → k ≤ 32 → s.rdLen.toNat ≤ 4096 → s.status.eos = false → ∀ R : Nat, s.rdPos.toNat + R = 8 * s.rdLen.toNat →
      R < k →
      exec (.rdbits rd k) s = .next
        { s.withF rd (s.rdbuf.streamBits s.rdPos.toNat R * 2 ^ (k - R) + 2 ^ (k - R - 1)) with
          rdPos := BitVec.ofNat 16 (8 * s.rdLen.toNat)
          status := { s.status with busy := false, done := true, eos := true } } ∧
      s.rdbuf.streamBits s.rdPos.toNat R * 2 ^ (k - R) + 2 ^ (k - R - 1) < 2 ^ k)

/-- 43_bit_writer.md R192 (with R191): WRBLK. Its encoding; the errors in order, INVALID_ARGUMENT (2) for k and for
WR_CAP > 4096, ALREADY_FINALIZED (7), BUFFER_OVERFLOW (6); otherwise stream bit WR_TOTAL + j of WRBUF becomes bit
k - 1 - j of F[rs1] for each j < k, every other bit keeps its value, and WR_TOTAL advances by k. -/
def Obligations.WrblkAppendsTheLowBits : Prop :=
  (∀ w : Word, w &&& 0xFFF0FFC0 = 0x03000000 → decode w = .ok (.wrblk (rs1Field w) (kField w))) ∧
  ∀ (rs1 : Reg) (k : Nat) (s : State),
    (k = 0 ∨ 32 < k → exec (.wrblk rs1 k) s = .next (s.failedWith 2)) ∧
    (1 ≤ k → k ≤ 32 → 4096 < s.wrCap.toNat → exec (.wrblk rs1 k) s = .next (s.failedWith 2)) ∧
    (1 ≤ k → k ≤ 32 → s.wrCap.toNat ≤ 4096 → s.status.wfin = true →
      exec (.wrblk rs1 k) s = .next (s.failedWith 7)) ∧
    (1 ≤ k → k ≤ 32 → s.wrCap.toNat ≤ 4096 → s.status.wfin = false → 8 * s.wrCap.toNat < s.wrTotal.toNat + k →
      exec (.wrblk rs1 k) s = .next (s.failedWith 6)) ∧
    (1 ≤ k → k ≤ 32 → s.wrCap.toNat ≤ 4096 → s.status.wfin = false → s.wrTotal.toNat + k ≤ 8 * s.wrCap.toNat →
      s.wrbuf.wf →
      ∃ m : Memory, exec (.wrblk rs1 k) s = .next
          { s.succeeded with wrbuf := m, wrTotal := BitVec.ofNat 16 (s.wrTotal.toNat + k) } ∧
        s.wrTotal.toNat + k < 2 ^ 16 ∧ m.wf ∧
        (∀ j < k, m.streamBit (s.wrTotal.toNat + j) = (s.fval rs1 >>> (k - 1 - j)) &&& 1) ∧
        (∀ n, n < s.wrTotal.toNat ∨ s.wrTotal.toNat + k ≤ n → m.streamBit n = s.wrbuf.streamBit n))

/-- 43_bit_writer.md R193 (with R191): WRFIN. Its encoding; the errors in order, INVALID_ARGUMENT (2) for k and for
WR_CAP > 4096, ALREADY_FINALIZED (7), INVALID_PADDING (5) where the low k bits are 0, BUFFER_OVERFLOW (6). Otherwise,
with the padding length pad (the lowest 1 of the block is its bit pad - 1, 1 ≤ pad ≤ k) and m = k - pad, stream bit
WR_TOTAL + j of WRBUF becomes bit k - 1 - j of F[rs1] for each j < m, every other bit keeps its value, WR_TOTAL
advances by m, WFIN is set, and F[rd] takes the new WR_TOTAL. -/
def Obligations.WrfinStripsThePaddingAndFinalizes : Prop :=
  (∀ w : Word, w &&& 0xFF00FFC0 = 0x04000000 → decode w = .ok (.wrfin (rdField w) (rs1Field w) (kField w))) ∧
  ∀ (rd rs1 : Reg) (k : Nat) (s : State),
    (k = 0 ∨ 32 < k → exec (.wrfin rd rs1 k) s = .next (s.failedWith 2)) ∧
    (1 ≤ k → k ≤ 32 → 4096 < s.wrCap.toNat → exec (.wrfin rd rs1 k) s = .next (s.failedWith 2)) ∧
    (1 ≤ k → k ≤ 32 → s.wrCap.toNat ≤ 4096 → s.status.wfin = true →
      exec (.wrfin rd rs1 k) s = .next (s.failedWith 7)) ∧
    (1 ≤ k → k ≤ 32 → s.wrCap.toNat ≤ 4096 → s.status.wfin = false → s.fval rs1 % 2 ^ k = 0 →
      exec (.wrfin rd rs1 k) s = .next (s.failedWith 5)) ∧
    (1 ≤ k → k ≤ 32 → s.wrCap.toNat ≤ 4096 → s.status.wfin = false → s.fval rs1 % 2 ^ k ≠ 0 →
      ∃ pad, 1 ≤ pad ∧ pad ≤ k ∧ s.fval rs1 % 2 ^ pad = 2 ^ (pad - 1) ∧
        (8 * s.wrCap.toNat < s.wrTotal.toNat + (k - pad) → exec (.wrfin rd rs1 k) s = .next (s.failedWith 6)) ∧
        (s.wrTotal.toNat + (k - pad) ≤ 8 * s.wrCap.toNat → s.wrbuf.wf →
          ∃ m : Memory, exec (.wrfin rd rs1 k) s = .next
              { s.withF rd (s.wrTotal.toNat + (k - pad)) with
                wrbuf := m
                wrTotal := BitVec.ofNat 16 (s.wrTotal.toNat + (k - pad))
                status := { s.status with busy := false, done := true, wfin := true } } ∧
            s.wrTotal.toNat + (k - pad) < 2 ^ 16 ∧ m.wf ∧
            (∀ j < k - pad, m.streamBit (s.wrTotal.toNat + j) = (s.fval rs1 >>> (k - 1 - j)) &&& 1) ∧
            (∀ n, n < s.wrTotal.toNat ∨ s.wrTotal.toNat + (k - pad) ≤ n → m.streamBit n = s.wrbuf.streamBit n)))

/-- 45_poly_eval.md R220, R221 and R225: PEVAL. Its encoding; INVALID_ARGUMENT (2) where PCOUNT is outside [1, 256];
FIELD_RANGE (3) where x or a coefficient in use is ≥ p; otherwise F[rd] takes the sum of COEF[i] * x^i mod p over
i < PCOUNT. -/
def Obligations.PevalEvaluatesThePolynomial : Prop :=
  (∀ w : Word, w &&& 0xFF00FFFF = 0x09000000 → decode w = .ok (.peval (rdField w) (rs1Field w))) ∧
  ∀ (rd rs1 : Reg) (s : State),
    (s.pcount.toNat = 0 ∨ 256 < s.pcount.toNat → exec (.peval rd rs1) s = .next (s.failedWith 2)) ∧
    (1 ≤ s.pcount.toNat → s.pcount.toNat ≤ 256 →
      Config.p ≤ s.fval rs1 ∨ (∃ i < s.pcount.toNat, Config.p ≤ s.coefAt i) →
      exec (.peval rd rs1) s = .next (s.failedWith 3)) ∧
    (1 ≤ s.pcount.toNat → s.pcount.toNat ≤ 256 → s.fval rs1 < Config.p →
      (∀ i < s.pcount.toNat, s.coefAt i < Config.p) →
      exec (.peval rd rs1) s = .next
        (s.withF rd ((∑ i ∈ Finset.range s.pcount.toNat, s.coefAt i * s.fval rs1 ^ i) % Config.p)).succeeded)

/-- 45_poly_eval.md R222: CZERO is 0x0A000000 exactly; all 256 coefficient words become 0, and nothing else but STATUS
changes, PCOUNT and the F registers neither. -/
def Obligations.CzeroClearsTheWholeStore : Prop :=
  (∀ w : Word, decode w = .ok .czero ↔ w = 0x0A000000) ∧
  ∀ s : State, ∃ c : Vector Word 256, (∀ j : Fin 256, c.get j = 0) ∧
    exec .czero s = .next { s.succeeded with coef := c }

/-- 45_poly_eval.md R223: CPUT. Its encoding; INVALID_ARGUMENT (2) where F[rs2] ≥ 256, before FIELD_RANGE (3) where
F[rs1] ≥ p; otherwise COEF[F[rs2]] <- F[rs1]. -/
def Obligations.CputStoresAFieldElement : Prop :=
  (∀ w : Word, w &&& 0xFFF00FFF = 0x0B000000 → decode w = .ok (.cput (rs1Field w) (rs2Field w))) ∧
  ∀ (rs1 rs2 : Reg) (s : State),
    (256 ≤ s.fval rs2 → exec (.cput rs1 rs2) s = .next (s.failedWith 2)) ∧
    (s.fval rs2 < 256 → Config.p ≤ s.fval rs1 → exec (.cput rs1 rs2) s = .next (s.failedWith 3)) ∧
    (∀ j : Fin 256, s.fval rs2 = j.val → s.fval rs1 < Config.p →
      exec (.cput rs1 rs2) s = .next { s.succeeded with coef := s.coef.set j.val (s.readF rs1) j.isLt })

/-- 45_poly_eval.md R224: CGET. Its encoding; INVALID_ARGUMENT (2) where F[rs2] ≥ 256; otherwise F[rd] <- COEF[F[rs2]], the
raw word, with no field check. -/
def Obligations.CgetLoadsTheRawWord : Prop :=
  (∀ w : Word, w &&& 0xFF0F0FFF = 0x0C000000 → decode w = .ok (.cget (rdField w) (rs2Field w))) ∧
  ∀ (rd rs2 : Reg) (s : State),
    (256 ≤ s.fval rs2 → exec (.cget rd rs2) s = .next (s.failedWith 2)) ∧
    (∀ j : Fin 256, s.fval rs2 = j.val →
      exec (.cget rd rs2) s = .next { s.succeeded with f := s.f.set rd.val (s.coef.get j) rd.isLt })

/-! ## Frames and whole-machine rules -/

/-- The frame of the commands that write one register (FINV, FADD, FSUB, FMUL, FSAMPLE, PEVAL, CGET): every other register,
every coefficient word, every byte of both buffers, the command, reader, writer and polynomial registers, and in
STATUS the fields NONE, WBUSY, EOS and WFIN are unchanged; REJ is unchanged but for FSAMPLE. -/
def Obligations.RegisterCommandsFrame : Prop :=
  ∀ (i : Instr) (rd a b : Reg) (s t : State),
    i = .finv rd a ∨ i = .fadd rd a b ∨ i = .fsub rd a b ∨ i = .fmul rd a b ∨ i = .fsample rd a ∨ i = .peval rd a ∨
      i = .cget rd a →
    exec i s = .next t →
    (∀ q, q ≠ rd → t.readF q = s.readF q) ∧ (∀ j, t.readCoef j = s.readCoef j) ∧
    (∀ n, t.rdbuf.read n = s.rdbuf.read n) ∧ (∀ n, t.wrbuf.read n = s.wrbuf.read n) ∧
    t.cmd = s.cmd ∧ t.rdLen = s.rdLen ∧ t.rdPos = s.rdPos ∧ t.wrCap = s.wrCap ∧ t.wrTotal = s.wrTotal ∧
    t.pcount = s.pcount ∧ t.bus = s.bus ∧ t.status.none = s.status.none ∧ t.status.wbusy = s.status.wbusy ∧
    t.status.eos = s.status.eos ∧ t.status.wfin = s.status.wfin ∧ (i ≠ .fsample rd a → t.status.rej = s.status.rej)

/-- The frame of the reader: RDBITS writes F[rd], RD_POS, EOS and NONE, and reads RDBUF without changing it. -/
def Obligations.ReaderFrame : Prop :=
  ∀ (rd : Reg) (k : Nat) (s t : State), exec (.rdbits rd k) s = .next t →
    (∀ q, q ≠ rd → t.readF q = s.readF q) ∧ (∀ j, t.readCoef j = s.readCoef j) ∧
    (∀ n, t.rdbuf.read n = s.rdbuf.read n) ∧ (∀ n, t.wrbuf.read n = s.wrbuf.read n) ∧
    t.cmd = s.cmd ∧ t.rdLen = s.rdLen ∧ t.wrCap = s.wrCap ∧ t.wrTotal = s.wrTotal ∧ t.pcount = s.pcount ∧
    t.bus = s.bus ∧ t.status.rej = s.status.rej ∧ t.status.wbusy = s.status.wbusy ∧ t.status.wfin = s.status.wfin ∧
    (t.status.none = true → s.status.none = false → t.readF rd = s.readF rd ∧ t.rdPos = s.rdPos)

/-- The frame of the writer. With m the number of bits the command stores (k for WRBLK; for WRFIN, k less the padding length
that its meaning finds in the low k bits of F[rs]), stored from stream bit WR_TOTAL on: every byte of WRBUF that holds
none of those bits reads as before, and so does every other stream bit. WRBLK writes no register and leaves WFIN;
WRFIN writes only F[rd]; nothing else but WR_TOTAL and STATUS changes. -/
def Obligations.WriterFrame : Prop :=
  ∀ (rd rs : Reg) (k m : Nat) (i : Instr) (s t : State),
    (i = .wrblk rs k ∧ m = k) ∨ (i = .wrfin rd rs k ∧ m = k - paddingLength k (lowBits k (s.readF rs))) →
    s.wrbuf.wf → exec i s = .next t →
    (∀ q, (i = .wrblk rs k ∨ q ≠ rd) → t.readF q = s.readF q) ∧ (∀ j, t.readCoef j = s.readCoef j) ∧
    (∀ n, t.rdbuf.read n = s.rdbuf.read n) ∧
    (∀ n, n < s.wrTotal.toNat / 8 ∨ s.wrTotal.toNat + m ≤ 8 * n → t.wrbuf.read n = s.wrbuf.read n) ∧
    (∀ n, n < s.wrTotal.toNat ∨ s.wrTotal.toNat + m ≤ n → t.wrbuf.streamBit n = s.wrbuf.streamBit n) ∧
    t.cmd = s.cmd ∧ t.rdLen = s.rdLen ∧ t.rdPos = s.rdPos ∧ t.wrCap = s.wrCap ∧ t.pcount = s.pcount ∧
    t.bus = s.bus ∧ t.status.none = s.status.none ∧ t.status.rej = s.status.rej ∧ t.status.wbusy = s.status.wbusy ∧
    t.status.eos = s.status.eos ∧ (i = .wrblk rs k → t.status.wfin = s.status.wfin)

/-- The frame of NOP, CZERO and CPUT: no register, no byte of a buffer, no reader, writer or polynomial register and no
unit flag changes; CPUT changes no coefficient word but the one F[rs2] names, NOP none. -/
def Obligations.StoreCommandsFrame : Prop :=
  ∀ (rs1 rs2 : Reg) (i : Instr) (s t : State), i = .nop ∨ i = .czero ∨ i = .cput rs1 rs2 → exec i s = .next t →
    (∀ q, t.readF q = s.readF q) ∧ (∀ n, t.rdbuf.read n = s.rdbuf.read n) ∧ (∀ n, t.wrbuf.read n = s.wrbuf.read n) ∧
    (i = .nop → ∀ j, t.readCoef j = s.readCoef j) ∧
    (i = .cput rs1 rs2 → ∀ j : Fin 256, j.val ≠ s.fval rs2 → t.readCoef j = s.readCoef j) ∧
    t.cmd = s.cmd ∧ t.rdLen = s.rdLen ∧ t.rdPos = s.rdPos ∧ t.wrCap = s.wrCap ∧ t.wrTotal = s.wrTotal ∧
    t.pcount = s.pcount ∧ t.bus = s.bus ∧ t.status.none = s.status.none ∧ t.status.rej = s.status.rej ∧
    t.status.wbusy = s.status.wbusy ∧ t.status.eos = s.status.eos ∧ t.status.wfin = s.status.wfin

/-- 10_state.md R43: what changes EOS, among all steps: an RDBITS sets it, at its completion, by reading past the last
real bit; a write to RD_LEN while idle, and a reset, clear it; no other event changes it. -/
def Obligations.OnlyTheReaderSetsEos : Prop :=
  ∀ s t : State, step s = .next t →
    (s.status.eos = false → t.status.eos = true →
      s.status.busy = true ∧ (s.bus.pending = [] ∨ ∃ ms, s.bus.pending = .core :: ms) ∧ t.status.done = true ∧
        ∃ rd k, decode s.cmd = .ok (.rdbits rd k) ∧ 8 * s.rdLen.toNat < s.rdPos.toNat + k) ∧
    (s.status.eos = true → t.status.eos = false →
      (∃ ms, s.bus.pending = .powerOn :: ms) ∨
      ∃ a v ms, s.bus.pending = .write a v :: ms ∧
        (a.offset = 0x0008 ∧ v.getLsbD 0 = true ∨ a.offset = 0x000C ∧ s.status.busy = false))

/-- 10_state.md R44: what changes WFIN, among all steps: a successful WRFIN sets it, at its completion; a write to WR_CAP
while idle, and a reset, clear it; no other event changes it. -/
def Obligations.OnlyWrfinSetsWfin : Prop :=
  ∀ s t : State, step s = .next t →
    (s.status.wfin = false → t.status.wfin = true →
      s.status.busy = true ∧ (s.bus.pending = [] ∨ ∃ ms, s.bus.pending = .core :: ms) ∧ t.status.done = true ∧
        (s.status.err = false → t.status.err = false) ∧ ∃ rd rs k, decode s.cmd = .ok (.wrfin rd rs k)) ∧
    (s.status.wfin = true → t.status.wfin = false →
      (∃ ms, s.bus.pending = .powerOn :: ms) ∨
      ∃ a v ms, s.bus.pending = .write a v :: ms ∧
        (a.offset = 0x0008 ∧ v.getLsbD 0 = true ∨ a.offset = 0x0014 ∧ s.status.busy = false))

/-- 10_state.md R40 and R41: what changes NONE and REJ, among all steps: NONE is set by the completion of an RDBITS while
EOS = 1, REJ by that of an FSAMPLE whose masked word is ≥ p; both are cleared at issue and by a reset, and by nothing
else. -/
def Obligations.NoneAndRejDescribeTheLatestCommand : Prop :=
  ∀ s t : State, step s = .next t →
    (s.status.none = false → t.status.none = true →
      s.status.busy = true ∧ (s.bus.pending = [] ∨ ∃ ms, s.bus.pending = .core :: ms) ∧ t.status.done = true ∧
        s.status.eos = true ∧ ∃ rd k, decode s.cmd = .ok (.rdbits rd k)) ∧
    (s.status.rej = false → t.status.rej = true →
      s.status.busy = true ∧ (s.bus.pending = [] ∨ ∃ ms, s.bus.pending = .core :: ms) ∧ t.status.done = true ∧
        ∃ rd rs, decode s.cmd = .ok (.fsample rd rs) ∧ Config.p ≤ s.fval rs % 2 ^ 31) ∧
    ((s.status.none = true ∧ t.status.none = false) ∨ (s.status.rej = true ∧ t.status.rej = false) →
      (∃ ms, s.bus.pending = .powerOn :: ms) ∨
      ∃ a v ms, s.bus.pending = .write a v :: ms ∧
        (a.offset = 0x0008 ∧ v.getLsbD 0 = true ∨ a.offset = 0x0000 ∧ s.status.busy = false))

/-- 10_state.md section 1, "written by commands: none": no completion writes RDBUF, CMD, RD_LEN, WR_CAP or PCOUNT, and
every completion clears BUSY, sets DONE and keeps WBUSY. -/
def Obligations.CommandsNeverWriteTheirConfiguration : Prop :=
  ∀ (i : Instr) (s t : State), exec i s = .next t →
    t.rdbuf = s.rdbuf ∧ t.cmd = s.cmd ∧ t.rdLen = s.rdLen ∧ t.wrCap = s.wrCap ∧ t.pcount = s.pcount ∧ t.bus = s.bus ∧
    t.status.busy = false ∧ t.status.done = true ∧ t.status.wbusy = s.status.wbusy

/-- 44_field_arith.md R204: every result that FADD, FSUB, FMUL, FINV and PEVAL write is a canonical residue in [0, p), and
FINV's is in [1, p). -/
def Obligations.FieldResultsAreCanonical : Prop :=
  ∀ (i : Instr) (rd a b : Reg) (s t : State),
    i = .finv rd a ∨ i = .fadd rd a b ∨ i = .fsub rd a b ∨ i = .fmul rd a b ∨ i = .peval rd a →
    s.status.err = false → exec i s = .next t → t.status.err = false →
    t.fval rd < Config.p ∧ (i = .finv rd a → 0 < t.fval rd)

/-- 44_field_arith.md R204: "Division by b is FINV of b, then FMUL": the quotient times b is a again, for every field
element a and every b in [1, p), when the inverse goes to a register other than a's. -/
def Obligations.InverseThenProductDivides : Prop :=
  ∀ (s : State) (q a b : Reg), q ≠ a → s.fval a < Config.p → 0 < s.fval b → s.fval b < Config.p →
    ∃ t u, exec (.finv q b) s = .next t ∧ exec (.fmul q a q) t = .next u ∧
      u.fval q * s.fval b % Config.p = s.fval a

/-- 44_field_arith.md R206: with equal X values the difference is 0, and FINV raises NOT_INVERTIBLE. -/
def Obligations.EqualSharesAreNotInvertible : Prop :=
  ∀ (s : State) (q a b : Reg), s.fval a < Config.p → s.fval b = s.fval a →
    ∃ t, exec (.fsub q a b) s = .next t ∧ exec (.finv q q) t = .next (t.failedWith 4)

/-- 45_poly_eval.md R220: COEF[T] to COEF[255] are neither read nor checked: two states that agree but for coefficient
words at PCOUNT and above leave the same register after PEVAL, and fail alike. -/
def Obligations.PevalIgnoresUnusedCoefficients : Prop :=
  ∀ (rd rs1 : Reg) (s t : State) (c : Vector Word 256),
    (∀ j : Fin 256, j.val < s.pcount.toNat → c.get j = s.coef.get j) → exec (.peval rd rs1) s = .next t →
    exec (.peval rd rs1) { s with coef := c } = .next { t with coef := c }

/-! ## The padded sequence -/

/-- 42_bit_reader.md R183: from the start of a sequence, RDBITS with legal widths ks, of which all but the last fit in the
real data and all together do not: every command succeeds and none returns `None`; the groups, written one after the
other, are the 8 * RD_LEN real bits, a 1, and zeros; EOS is set by the last group and not before; and then every RDBITS
returns `None` and changes nothing else. -/
def Obligations.GroupsAreTheDataAndItsPadding : Prop :=
  ∀ (s : State) (rd : Reg) (ks : List Nat) (k : Nat),
    s.rdLen.toNat ≤ 4096 → s.rdPos = 0 → s.status.eos = false →
    (∀ x ∈ ks ++ [k], 1 ≤ x ∧ x ≤ 32) → ks.sum ≤ 8 * s.rdLen.toNat → 8 * s.rdLen.toNat < ks.sum + k →
    (∀ n, 1 ≤ n → n ≤ ks.length + 1 →
      (s.readGroups rd ((ks ++ [k]).take n)).2.status.err = false ∧
      (s.readGroups rd ((ks ++ [k]).take n)).2.status.none = false ∧
      ((s.readGroups rd ((ks ++ [k]).take n)).2.status.eos = true ↔ n = ks.length + 1)) ∧
    joinGroups (s.readGroups rd (ks ++ [k])).1 =
      s.rdbuf.streamBits 0 (8 * s.rdLen.toNat) * 2 ^ (ks.sum + k - 8 * s.rdLen.toNat)
        + 2 ^ (ks.sum + k - 8 * s.rdLen.toNat - 1) ∧
    (∀ g ∈ (s.readGroups rd (ks ++ [k])).1, g.2.toNat < 2 ^ g.1) ∧
    (∀ x, 1 ≤ x → x ≤ 32 →
      ((s.readGroups rd (ks ++ [k])).2.after (.rdbits rd x)).status.none = true ∧
      ((s.readGroups rd (ks ++ [k])).2.after (.rdbits rd x)).status.err = false ∧
      ((s.readGroups rd (ks ++ [k])).2.after (.rdbits rd x)).f = (s.readGroups rd (ks ++ [k])).2.f ∧
      ((s.readGroups rd (ks ++ [k])).2.after (.rdbits rd x)).rdPos = (s.readGroups rd (ks ++ [k])).2.rdPos)

/-- 42_bit_reader.md R184: with width 30, L bytes yield 8L / 30 + 1 groups before `None`; every group is below 2^30; where
8L is a multiple of 30 the last one is 0x20000000. -/
def Obligations.ChunkCountOfASecret : Prop :=
  ∀ (s : State) (rd : Reg), s.rdLen.toNat ≤ 4096 → s.rdPos = 0 → s.status.eos = false →
    (∀ n, n ≤ 8 * s.rdLen.toNat / 30 → (s.readGroups rd (List.replicate n 30)).2.status.eos = false) ∧
    (s.readGroups rd (List.replicate (8 * s.rdLen.toNat / 30 + 1) 30)).2.status.eos = true ∧
    (∀ n, 1 ≤ n → ((s.readGroups rd (List.replicate n 30)).2.status.none = true ↔ 8 * s.rdLen.toNat / 30 + 1 < n)) ∧
    (∀ g ∈ (s.readGroups rd (List.replicate (8 * s.rdLen.toNat / 30 + 1) 30)).1,
      g.2.toNat < 2 ^ 30 ∧ g.2.toNat < Config.p) ∧
    (30 ∣ 8 * s.rdLen.toNat →
      (s.readGroups rd (List.replicate (8 * s.rdLen.toNat / 30 + 1) 30)).2.readF rd = 0x20000000)

/-- 43_bit_writer.md R195: the round trip. A buffer of L bytes is read with any legal widths until its padding group;
then the groups but the last are written back with WRBLK and the last with WRFIN, at the same widths, into a writer
restarted with a legal WR_CAP ≥ L. All commands succeed, WR_TOTAL = 8 * L, and WB(0..L-1) = RB(0..L-1). -/
def Obligations.ReadingThenWritingBackReproducesTheBuffer : Prop :=
  ∀ (s u : State) (rd rs : Reg) (ks : List Nat) (k : Nat) (gs : List (Nat × Word)) (g : Nat × Word),
    s.rdLen.toNat ≤ 4096 → s.rdPos = 0 → s.status.eos = false →
    (∀ x ∈ ks ++ [k], 1 ≤ x ∧ x ≤ 32) → ks.sum ≤ 8 * s.rdLen.toNat → 8 * s.rdLen.toNat < ks.sum + k →
    (s.readGroups rd (ks ++ [k])).1 = gs ++ [g] →
    s.rdLen.toNat ≤ u.wrCap.toNat → u.wrCap.toNat ≤ 4096 → u.wrTotal = 0 → u.status.wfin = false → u.wrbuf.wf →
    (∀ n, 1 ≤ n → n ≤ gs.length → (u.writeGroups rs (gs.take n)).status.err = false) ∧
    ((u.writeGroups rs gs).writeFinal rd rs g).status.err = false ∧
    ((u.writeGroups rs gs).writeFinal rd rs g).status.wfin = true ∧
    ((u.writeGroups rs gs).writeFinal rd rs g).wrTotal.toNat = 8 * s.rdLen.toNat ∧
    ((u.writeGroups rs gs).writeFinal rd rs g).fval rd = 8 * s.rdLen.toNat ∧
    ∀ j < s.rdLen.toNat, ((u.writeGroups rs gs).writeFinal rd rs g).wrbuf.read j = s.rdbuf.read j
end

