-- ==== Sys2Proof/Laws/State.lean ====
section
/-! SUPPORT. One lemma per field per update of State, true by rfl, so that no later proof unfolds a record update. -/

namespace Sys2Proof.Machine

variable (s : State)

/-! ## writeF -/

@[simp] theorem State.writeF_f (r : Reg) (v : Word) : (s.writeF r v).f = s.f.set r.val v r.isLt := rfl
@[simp] theorem State.writeF_coef (r : Reg) (v : Word) : (s.writeF r v).coef = s.coef := rfl
@[simp] theorem State.writeF_rdbuf (r : Reg) (v : Word) : (s.writeF r v).rdbuf = s.rdbuf := rfl
@[simp] theorem State.writeF_wrbuf (r : Reg) (v : Word) : (s.writeF r v).wrbuf = s.wrbuf := rfl
@[simp] theorem State.writeF_cmd (r : Reg) (v : Word) : (s.writeF r v).cmd = s.cmd := rfl
@[simp] theorem State.writeF_status (r : Reg) (v : Word) : (s.writeF r v).status = s.status := rfl
@[simp] theorem State.writeF_rdLen (r : Reg) (v : Word) : (s.writeF r v).rdLen = s.rdLen := rfl
@[simp] theorem State.writeF_rdPos (r : Reg) (v : Word) : (s.writeF r v).rdPos = s.rdPos := rfl
@[simp] theorem State.writeF_wrCap (r : Reg) (v : Word) : (s.writeF r v).wrCap = s.wrCap := rfl
@[simp] theorem State.writeF_wrTotal (r : Reg) (v : Word) : (s.writeF r v).wrTotal = s.wrTotal := rfl
@[simp] theorem State.writeF_pcount (r : Reg) (v : Word) : (s.writeF r v).pcount = s.pcount := rfl
@[simp] theorem State.writeF_bus (r : Reg) (v : Word) : (s.writeF r v).bus = s.bus := rfl

/-! ## writeCoef -/

@[simp] theorem State.writeCoef_f (j : Fin 256) (v : Word) : (s.writeCoef j v).f = s.f := rfl
@[simp] theorem State.writeCoef_coef (j : Fin 256) (v : Word) : (s.writeCoef j v).coef = s.coef.set j.val v j.isLt := rfl
@[simp] theorem State.writeCoef_rdbuf (j : Fin 256) (v : Word) : (s.writeCoef j v).rdbuf = s.rdbuf := rfl
@[simp] theorem State.writeCoef_wrbuf (j : Fin 256) (v : Word) : (s.writeCoef j v).wrbuf = s.wrbuf := rfl
@[simp] theorem State.writeCoef_cmd (j : Fin 256) (v : Word) : (s.writeCoef j v).cmd = s.cmd := rfl
@[simp] theorem State.writeCoef_status (j : Fin 256) (v : Word) : (s.writeCoef j v).status = s.status := rfl
@[simp] theorem State.writeCoef_rdLen (j : Fin 256) (v : Word) : (s.writeCoef j v).rdLen = s.rdLen := rfl
@[simp] theorem State.writeCoef_rdPos (j : Fin 256) (v : Word) : (s.writeCoef j v).rdPos = s.rdPos := rfl
@[simp] theorem State.writeCoef_wrCap (j : Fin 256) (v : Word) : (s.writeCoef j v).wrCap = s.wrCap := rfl
@[simp] theorem State.writeCoef_wrTotal (j : Fin 256) (v : Word) : (s.writeCoef j v).wrTotal = s.wrTotal := rfl
@[simp] theorem State.writeCoef_pcount (j : Fin 256) (v : Word) : (s.writeCoef j v).pcount = s.pcount := rfl
@[simp] theorem State.writeCoef_bus (j : Fin 256) (v : Word) : (s.writeCoef j v).bus = s.bus := rfl

/-! ## setRdPos -/

@[simp] theorem State.setRdPos_f (n : Nat) : (s.setRdPos n).f = s.f := rfl
@[simp] theorem State.setRdPos_coef (n : Nat) : (s.setRdPos n).coef = s.coef := rfl
@[simp] theorem State.setRdPos_rdbuf (n : Nat) : (s.setRdPos n).rdbuf = s.rdbuf := rfl
@[simp] theorem State.setRdPos_wrbuf (n : Nat) : (s.setRdPos n).wrbuf = s.wrbuf := rfl
@[simp] theorem State.setRdPos_cmd (n : Nat) : (s.setRdPos n).cmd = s.cmd := rfl
@[simp] theorem State.setRdPos_status (n : Nat) : (s.setRdPos n).status = s.status := rfl
@[simp] theorem State.setRdPos_rdLen (n : Nat) : (s.setRdPos n).rdLen = s.rdLen := rfl
@[simp] theorem State.setRdPos_rdPos (n : Nat) : (s.setRdPos n).rdPos = BitVec.ofNat 16 n := rfl
@[simp] theorem State.setRdPos_wrCap (n : Nat) : (s.setRdPos n).wrCap = s.wrCap := rfl
@[simp] theorem State.setRdPos_wrTotal (n : Nat) : (s.setRdPos n).wrTotal = s.wrTotal := rfl
@[simp] theorem State.setRdPos_pcount (n : Nat) : (s.setRdPos n).pcount = s.pcount := rfl
@[simp] theorem State.setRdPos_bus (n : Nat) : (s.setRdPos n).bus = s.bus := rfl

/-! ## setEos -/

@[simp] theorem State.setEos_f : (s.setEos).f = s.f := rfl
@[simp] theorem State.setEos_coef : (s.setEos).coef = s.coef := rfl
@[simp] theorem State.setEos_rdbuf : (s.setEos).rdbuf = s.rdbuf := rfl
@[simp] theorem State.setEos_wrbuf : (s.setEos).wrbuf = s.wrbuf := rfl
@[simp] theorem State.setEos_cmd : (s.setEos).cmd = s.cmd := rfl
@[simp] theorem State.setEos_status : (s.setEos).status = { s.status with eos := true } := rfl
@[simp] theorem State.setEos_rdLen : (s.setEos).rdLen = s.rdLen := rfl
@[simp] theorem State.setEos_rdPos : (s.setEos).rdPos = s.rdPos := rfl
@[simp] theorem State.setEos_wrCap : (s.setEos).wrCap = s.wrCap := rfl
@[simp] theorem State.setEos_wrTotal : (s.setEos).wrTotal = s.wrTotal := rfl
@[simp] theorem State.setEos_pcount : (s.setEos).pcount = s.pcount := rfl
@[simp] theorem State.setEos_bus : (s.setEos).bus = s.bus := rfl

/-! ## setNone -/

@[simp] theorem State.setNone_f : (s.setNone).f = s.f := rfl
@[simp] theorem State.setNone_coef : (s.setNone).coef = s.coef := rfl
@[simp] theorem State.setNone_rdbuf : (s.setNone).rdbuf = s.rdbuf := rfl
@[simp] theorem State.setNone_wrbuf : (s.setNone).wrbuf = s.wrbuf := rfl
@[simp] theorem State.setNone_cmd : (s.setNone).cmd = s.cmd := rfl
@[simp] theorem State.setNone_status : (s.setNone).status = { s.status with none := true } := rfl
@[simp] theorem State.setNone_rdLen : (s.setNone).rdLen = s.rdLen := rfl
@[simp] theorem State.setNone_rdPos : (s.setNone).rdPos = s.rdPos := rfl
@[simp] theorem State.setNone_wrCap : (s.setNone).wrCap = s.wrCap := rfl
@[simp] theorem State.setNone_wrTotal : (s.setNone).wrTotal = s.wrTotal := rfl
@[simp] theorem State.setNone_pcount : (s.setNone).pcount = s.pcount := rfl
@[simp] theorem State.setNone_bus : (s.setNone).bus = s.bus := rfl

/-! ## setRej -/

@[simp] theorem State.setRej_f : (s.setRej).f = s.f := rfl
@[simp] theorem State.setRej_coef : (s.setRej).coef = s.coef := rfl
@[simp] theorem State.setRej_rdbuf : (s.setRej).rdbuf = s.rdbuf := rfl
@[simp] theorem State.setRej_wrbuf : (s.setRej).wrbuf = s.wrbuf := rfl
@[simp] theorem State.setRej_cmd : (s.setRej).cmd = s.cmd := rfl
@[simp] theorem State.setRej_status : (s.setRej).status = { s.status with rej := true } := rfl
@[simp] theorem State.setRej_rdLen : (s.setRej).rdLen = s.rdLen := rfl
@[simp] theorem State.setRej_rdPos : (s.setRej).rdPos = s.rdPos := rfl
@[simp] theorem State.setRej_wrCap : (s.setRej).wrCap = s.wrCap := rfl
@[simp] theorem State.setRej_wrTotal : (s.setRej).wrTotal = s.wrTotal := rfl
@[simp] theorem State.setRej_pcount : (s.setRej).pcount = s.pcount := rfl
@[simp] theorem State.setRej_bus : (s.setRej).bus = s.bus := rfl

/-! ## append -/

@[simp] theorem State.append_f (k v : Nat) : (s.append k v).f = s.f := rfl
@[simp] theorem State.append_coef (k v : Nat) : (s.append k v).coef = s.coef := rfl
@[simp] theorem State.append_rdbuf (k v : Nat) : (s.append k v).rdbuf = s.rdbuf := rfl
@[simp] theorem State.append_wrbuf (k v : Nat) : (s.append k v).wrbuf = s.wrbuf.writeBits s.wrTotal.toNat k v := rfl
@[simp] theorem State.append_cmd (k v : Nat) : (s.append k v).cmd = s.cmd := rfl
@[simp] theorem State.append_status (k v : Nat) : (s.append k v).status = s.status := rfl
@[simp] theorem State.append_rdLen (k v : Nat) : (s.append k v).rdLen = s.rdLen := rfl
@[simp] theorem State.append_rdPos (k v : Nat) : (s.append k v).rdPos = s.rdPos := rfl
@[simp] theorem State.append_wrCap (k v : Nat) : (s.append k v).wrCap = s.wrCap := rfl
@[simp] theorem State.append_wrTotal (k v : Nat) : (s.append k v).wrTotal = BitVec.ofNat 16 (s.wrTotal.toNat + k) := rfl
@[simp] theorem State.append_pcount (k v : Nat) : (s.append k v).pcount = s.pcount := rfl
@[simp] theorem State.append_bus (k v : Nat) : (s.append k v).bus = s.bus := rfl

/-! ## setWfin -/

@[simp] theorem State.setWfin_f : (s.setWfin).f = s.f := rfl
@[simp] theorem State.setWfin_coef : (s.setWfin).coef = s.coef := rfl
@[simp] theorem State.setWfin_rdbuf : (s.setWfin).rdbuf = s.rdbuf := rfl
@[simp] theorem State.setWfin_wrbuf : (s.setWfin).wrbuf = s.wrbuf := rfl
@[simp] theorem State.setWfin_cmd : (s.setWfin).cmd = s.cmd := rfl
@[simp] theorem State.setWfin_status : (s.setWfin).status = { s.status with wfin := true } := rfl
@[simp] theorem State.setWfin_rdLen : (s.setWfin).rdLen = s.rdLen := rfl
@[simp] theorem State.setWfin_rdPos : (s.setWfin).rdPos = s.rdPos := rfl
@[simp] theorem State.setWfin_wrCap : (s.setWfin).wrCap = s.wrCap := rfl
@[simp] theorem State.setWfin_wrTotal : (s.setWfin).wrTotal = s.wrTotal := rfl
@[simp] theorem State.setWfin_pcount : (s.setWfin).pcount = s.pcount := rfl
@[simp] theorem State.setWfin_bus : (s.setWfin).bus = s.bus := rfl

/-! ## finalize -/

@[simp] theorem State.finalize_f (rd : Reg) (m u : Nat) : (s.finalize rd m u).f = s.f.set rd.val (wordOf (s.wrTotal.toNat + m)) rd.isLt := rfl
@[simp] theorem State.finalize_coef (rd : Reg) (m u : Nat) : (s.finalize rd m u).coef = s.coef := rfl
@[simp] theorem State.finalize_rdbuf (rd : Reg) (m u : Nat) : (s.finalize rd m u).rdbuf = s.rdbuf := rfl
@[simp] theorem State.finalize_wrbuf (rd : Reg) (m u : Nat) : (s.finalize rd m u).wrbuf = s.wrbuf.writeBits s.wrTotal.toNat m u := rfl
@[simp] theorem State.finalize_cmd (rd : Reg) (m u : Nat) : (s.finalize rd m u).cmd = s.cmd := rfl
@[simp] theorem State.finalize_status (rd : Reg) (m u : Nat) : (s.finalize rd m u).status = { s.status with wfin := true } := rfl
@[simp] theorem State.finalize_rdLen (rd : Reg) (m u : Nat) : (s.finalize rd m u).rdLen = s.rdLen := rfl
@[simp] theorem State.finalize_rdPos (rd : Reg) (m u : Nat) : (s.finalize rd m u).rdPos = s.rdPos := rfl
@[simp] theorem State.finalize_wrCap (rd : Reg) (m u : Nat) : (s.finalize rd m u).wrCap = s.wrCap := rfl
@[simp] theorem State.finalize_wrTotal (rd : Reg) (m u : Nat) : (s.finalize rd m u).wrTotal = BitVec.ofNat 16 (s.wrTotal.toNat + m) := rfl
@[simp] theorem State.finalize_pcount (rd : Reg) (m u : Nat) : (s.finalize rd m u).pcount = s.pcount := rfl
@[simp] theorem State.finalize_bus (rd : Reg) (m u : Nat) : (s.finalize rd m u).bus = s.bus := rfl

/-! ## clearCoef -/

@[simp] theorem State.clearCoef_f : (s.clearCoef).f = s.f := rfl
@[simp] theorem State.clearCoef_coef : (s.clearCoef).coef = Vector.replicate 256 0 := rfl
@[simp] theorem State.clearCoef_rdbuf : (s.clearCoef).rdbuf = s.rdbuf := rfl
@[simp] theorem State.clearCoef_wrbuf : (s.clearCoef).wrbuf = s.wrbuf := rfl
@[simp] theorem State.clearCoef_cmd : (s.clearCoef).cmd = s.cmd := rfl
@[simp] theorem State.clearCoef_status : (s.clearCoef).status = s.status := rfl
@[simp] theorem State.clearCoef_rdLen : (s.clearCoef).rdLen = s.rdLen := rfl
@[simp] theorem State.clearCoef_rdPos : (s.clearCoef).rdPos = s.rdPos := rfl
@[simp] theorem State.clearCoef_wrCap : (s.clearCoef).wrCap = s.wrCap := rfl
@[simp] theorem State.clearCoef_wrTotal : (s.clearCoef).wrTotal = s.wrTotal := rfl
@[simp] theorem State.clearCoef_pcount : (s.clearCoef).pcount = s.pcount := rfl
@[simp] theorem State.clearCoef_bus : (s.clearCoef).bus = s.bus := rfl

/-! ## issue -/

@[simp] theorem State.issue_f (w : Word) : (s.issue w).f = s.f := rfl
@[simp] theorem State.issue_coef (w : Word) : (s.issue w).coef = s.coef := rfl
@[simp] theorem State.issue_rdbuf (w : Word) : (s.issue w).rdbuf = s.rdbuf := rfl
@[simp] theorem State.issue_wrbuf (w : Word) : (s.issue w).wrbuf = s.wrbuf := rfl
@[simp] theorem State.issue_cmd (w : Word) : (s.issue w).cmd = w := rfl
@[simp] theorem State.issue_status (w : Word) : (s.issue w).status = s.status.issued := rfl
@[simp] theorem State.issue_rdLen (w : Word) : (s.issue w).rdLen = s.rdLen := rfl
@[simp] theorem State.issue_rdPos (w : Word) : (s.issue w).rdPos = s.rdPos := rfl
@[simp] theorem State.issue_wrCap (w : Word) : (s.issue w).wrCap = s.wrCap := rfl
@[simp] theorem State.issue_wrTotal (w : Word) : (s.issue w).wrTotal = s.wrTotal := rfl
@[simp] theorem State.issue_pcount (w : Word) : (s.issue w).pcount = s.pcount := rfl
@[simp] theorem State.issue_bus (w : Word) : (s.issue w).bus = s.bus := rfl

/-! ## dropWrite -/

@[simp] theorem State.dropWrite_f : (s.dropWrite).f = s.f := rfl
@[simp] theorem State.dropWrite_coef : (s.dropWrite).coef = s.coef := rfl
@[simp] theorem State.dropWrite_rdbuf : (s.dropWrite).rdbuf = s.rdbuf := rfl
@[simp] theorem State.dropWrite_wrbuf : (s.dropWrite).wrbuf = s.wrbuf := rfl
@[simp] theorem State.dropWrite_cmd : (s.dropWrite).cmd = s.cmd := rfl
@[simp] theorem State.dropWrite_status : (s.dropWrite).status = { s.status with wbusy := true } := rfl
@[simp] theorem State.dropWrite_rdLen : (s.dropWrite).rdLen = s.rdLen := rfl
@[simp] theorem State.dropWrite_rdPos : (s.dropWrite).rdPos = s.rdPos := rfl
@[simp] theorem State.dropWrite_wrCap : (s.dropWrite).wrCap = s.wrCap := rfl
@[simp] theorem State.dropWrite_wrTotal : (s.dropWrite).wrTotal = s.wrTotal := rfl
@[simp] theorem State.dropWrite_pcount : (s.dropWrite).pcount = s.pcount := rfl
@[simp] theorem State.dropWrite_bus : (s.dropWrite).bus = s.bus := rfl

/-! ## withPending -/

@[simp] theorem State.withPending_f (ms : List Move) : (s.withPending ms).f = s.f := rfl
@[simp] theorem State.withPending_coef (ms : List Move) : (s.withPending ms).coef = s.coef := rfl
@[simp] theorem State.withPending_rdbuf (ms : List Move) : (s.withPending ms).rdbuf = s.rdbuf := rfl
@[simp] theorem State.withPending_wrbuf (ms : List Move) : (s.withPending ms).wrbuf = s.wrbuf := rfl
@[simp] theorem State.withPending_cmd (ms : List Move) : (s.withPending ms).cmd = s.cmd := rfl
@[simp] theorem State.withPending_status (ms : List Move) : (s.withPending ms).status = s.status := rfl
@[simp] theorem State.withPending_rdLen (ms : List Move) : (s.withPending ms).rdLen = s.rdLen := rfl
@[simp] theorem State.withPending_rdPos (ms : List Move) : (s.withPending ms).rdPos = s.rdPos := rfl
@[simp] theorem State.withPending_wrCap (ms : List Move) : (s.withPending ms).wrCap = s.wrCap := rfl
@[simp] theorem State.withPending_wrTotal (ms : List Move) : (s.withPending ms).wrTotal = s.wrTotal := rfl
@[simp] theorem State.withPending_pcount (ms : List Move) : (s.withPending ms).pcount = s.pcount := rfl
@[simp] theorem State.withPending_bus (ms : List Move) : (s.withPending ms).bus = { s.bus with pending := ms } := rfl

/-! ## clear -/

@[simp] theorem State.clear_f : (s.clear).f = State.reset.f := rfl
@[simp] theorem State.clear_coef : (s.clear).coef = State.reset.coef := rfl
@[simp] theorem State.clear_rdbuf : (s.clear).rdbuf = State.reset.rdbuf := rfl
@[simp] theorem State.clear_wrbuf : (s.clear).wrbuf = State.reset.wrbuf := rfl
@[simp] theorem State.clear_cmd : (s.clear).cmd = State.reset.cmd := rfl
@[simp] theorem State.clear_status : (s.clear).status = State.reset.status := rfl
@[simp] theorem State.clear_rdLen : (s.clear).rdLen = State.reset.rdLen := rfl
@[simp] theorem State.clear_rdPos : (s.clear).rdPos = State.reset.rdPos := rfl
@[simp] theorem State.clear_wrCap : (s.clear).wrCap = State.reset.wrCap := rfl
@[simp] theorem State.clear_wrTotal : (s.clear).wrTotal = State.reset.wrTotal := rfl
@[simp] theorem State.clear_pcount : (s.clear).pcount = State.reset.pcount := rfl
@[simp] theorem State.clear_bus : (s.clear).bus = s.bus := rfl

/-! ## succeeded -/

@[simp] theorem State.succeeded_f : (s.succeeded).f = s.f := rfl
@[simp] theorem State.succeeded_coef : (s.succeeded).coef = s.coef := rfl
@[simp] theorem State.succeeded_rdbuf : (s.succeeded).rdbuf = s.rdbuf := rfl
@[simp] theorem State.succeeded_wrbuf : (s.succeeded).wrbuf = s.wrbuf := rfl
@[simp] theorem State.succeeded_cmd : (s.succeeded).cmd = s.cmd := rfl
@[simp] theorem State.succeeded_status : (s.succeeded).status = { s.status with busy := false, done := true } := rfl
@[simp] theorem State.succeeded_rdLen : (s.succeeded).rdLen = s.rdLen := rfl
@[simp] theorem State.succeeded_rdPos : (s.succeeded).rdPos = s.rdPos := rfl
@[simp] theorem State.succeeded_wrCap : (s.succeeded).wrCap = s.wrCap := rfl
@[simp] theorem State.succeeded_wrTotal : (s.succeeded).wrTotal = s.wrTotal := rfl
@[simp] theorem State.succeeded_pcount : (s.succeeded).pcount = s.pcount := rfl
@[simp] theorem State.succeeded_bus : (s.succeeded).bus = s.bus := rfl

/-! ## failedWith -/

@[simp] theorem State.failedWith_f (c : BitVec 4) : (s.failedWith c).f = s.f := rfl
@[simp] theorem State.failedWith_coef (c : BitVec 4) : (s.failedWith c).coef = s.coef := rfl
@[simp] theorem State.failedWith_rdbuf (c : BitVec 4) : (s.failedWith c).rdbuf = s.rdbuf := rfl
@[simp] theorem State.failedWith_wrbuf (c : BitVec 4) : (s.failedWith c).wrbuf = s.wrbuf := rfl
@[simp] theorem State.failedWith_cmd (c : BitVec 4) : (s.failedWith c).cmd = s.cmd := rfl
@[simp] theorem State.failedWith_status (c : BitVec 4) : (s.failedWith c).status = { s.status with busy := false, done := true, err := true, ecode := c } := rfl
@[simp] theorem State.failedWith_rdLen (c : BitVec 4) : (s.failedWith c).rdLen = s.rdLen := rfl
@[simp] theorem State.failedWith_rdPos (c : BitVec 4) : (s.failedWith c).rdPos = s.rdPos := rfl
@[simp] theorem State.failedWith_wrCap (c : BitVec 4) : (s.failedWith c).wrCap = s.wrCap := rfl
@[simp] theorem State.failedWith_wrTotal (c : BitVec 4) : (s.failedWith c).wrTotal = s.wrTotal := rfl
@[simp] theorem State.failedWith_pcount (c : BitVec 4) : (s.failedWith c).pcount = s.pcount := rfl
@[simp] theorem State.failedWith_bus (c : BitVec 4) : (s.failedWith c).bus = s.bus := rfl

/-! ## withF -/

@[simp] theorem State.withF_f (r : Reg) (n : Nat) : (s.withF r n).f = s.f.set r.val (BitVec.ofNat 32 n) r.isLt := rfl
@[simp] theorem State.withF_coef (r : Reg) (n : Nat) : (s.withF r n).coef = s.coef := rfl
@[simp] theorem State.withF_rdbuf (r : Reg) (n : Nat) : (s.withF r n).rdbuf = s.rdbuf := rfl
@[simp] theorem State.withF_wrbuf (r : Reg) (n : Nat) : (s.withF r n).wrbuf = s.wrbuf := rfl
@[simp] theorem State.withF_cmd (r : Reg) (n : Nat) : (s.withF r n).cmd = s.cmd := rfl
@[simp] theorem State.withF_status (r : Reg) (n : Nat) : (s.withF r n).status = s.status := rfl
@[simp] theorem State.withF_rdLen (r : Reg) (n : Nat) : (s.withF r n).rdLen = s.rdLen := rfl
@[simp] theorem State.withF_rdPos (r : Reg) (n : Nat) : (s.withF r n).rdPos = s.rdPos := rfl
@[simp] theorem State.withF_wrCap (r : Reg) (n : Nat) : (s.withF r n).wrCap = s.wrCap := rfl
@[simp] theorem State.withF_wrTotal (r : Reg) (n : Nat) : (s.withF r n).wrTotal = s.wrTotal := rfl
@[simp] theorem State.withF_pcount (r : Reg) (n : Nat) : (s.withF r n).pcount = s.pcount := rfl
@[simp] theorem State.withF_bus (r : Reg) (n : Nat) : (s.withF r n).bus = s.bus := rfl

/-! ## STATUS -/

variable (st : Status)

@[simp] theorem Status.issued_busy : (st.issued).busy = true := rfl
@[simp] theorem Status.issued_done : (st.issued).done = false := rfl
@[simp] theorem Status.issued_err : (st.issued).err = false := rfl
@[simp] theorem Status.issued_ecode : (st.issued).ecode = 0 := rfl
@[simp] theorem Status.issued_none : (st.issued).none = false := rfl
@[simp] theorem Status.issued_rej : (st.issued).rej = false := rfl
@[simp] theorem Status.issued_wbusy : (st.issued).wbusy = false := rfl
@[simp] theorem Status.issued_eos : (st.issued).eos = st.eos := rfl
@[simp] theorem Status.issued_wfin : (st.issued).wfin = st.wfin := rfl

@[simp] theorem Status.completed_busy : (st.completed).busy = false := rfl
@[simp] theorem Status.completed_done : (st.completed).done = true := rfl
@[simp] theorem Status.completed_err : (st.completed).err = st.err := rfl
@[simp] theorem Status.completed_ecode : (st.completed).ecode = st.ecode := rfl
@[simp] theorem Status.completed_none : (st.completed).none = st.none := rfl
@[simp] theorem Status.completed_rej : (st.completed).rej = st.rej := rfl
@[simp] theorem Status.completed_wbusy : (st.completed).wbusy = st.wbusy := rfl
@[simp] theorem Status.completed_eos : (st.completed).eos = st.eos := rfl
@[simp] theorem Status.completed_wfin : (st.completed).wfin = st.wfin := rfl

@[simp] theorem Status.failed_busy (e : CmdError) : (Status.failed e st).busy = false := rfl
@[simp] theorem Status.failed_done (e : CmdError) : (Status.failed e st).done = true := rfl
@[simp] theorem Status.failed_err (e : CmdError) : (Status.failed e st).err = true := rfl
@[simp] theorem Status.failed_ecode (e : CmdError) : (Status.failed e st).ecode = e.code := rfl
@[simp] theorem Status.failed_none (e : CmdError) : (Status.failed e st).none = st.none := rfl
@[simp] theorem Status.failed_rej (e : CmdError) : (Status.failed e st).rej = st.rej := rfl
@[simp] theorem Status.failed_wbusy (e : CmdError) : (Status.failed e st).wbusy = st.wbusy := rfl
@[simp] theorem Status.failed_eos (e : CmdError) : (Status.failed e st).eos = st.eos := rfl
@[simp] theorem Status.failed_wfin (e : CmdError) : (Status.failed e st).wfin = st.wfin := rfl

/-! ## Registers and coefficients -/

theorem State.readF_eq (r : Reg) : s.readF r = s.f[r.val]'r.isLt := rfl

theorem State.readCoef_eq (j : Fin 256) : s.readCoef j = s.coef[j.val]'j.isLt := rfl

@[simp] theorem State.readF_writeF_same (r : Reg) (v : Word) : (s.writeF r v).readF r = v := by
  simp [State.readF_eq]

theorem State.readF_writeF_other {r q : Reg} (v : Word) (h : q ≠ r) : (s.writeF r v).readF q = s.readF q := by
  have : r.val ≠ q.val := fun e => h (Fin.ext e.symm)
  simp [State.readF_eq, this]

@[simp] theorem State.readCoef_writeCoef_same (j : Fin 256) (v : Word) : (s.writeCoef j v).readCoef j = v := by
  simp [State.readCoef_eq]

theorem State.readCoef_writeCoef_other {j i : Fin 256} (v : Word) (h : i ≠ j) :
    (s.writeCoef j v).readCoef i = s.readCoef i := by
  have : j.val ≠ i.val := fun e => h (Fin.ext e.symm)
  simp [State.readCoef_eq, this]

@[simp] theorem State.fval_eq (r : Reg) : s.fval r = (s.readF r).toNat := rfl

theorem State.withF_eq_writeF (r : Reg) (n : Nat) : s.withF r n = s.writeF r (wordOf n) := rfl

/-- CZERO's effect, word by word. -/
@[simp] theorem State.readCoef_clearCoef (j : Fin 256) : s.clearCoef.readCoef j = 0 := by
  simp [State.readCoef_eq]

end Sys2Proof.Machine
end

