-- ==== Sys2Proof/Laws/Memory.lean ====
section
/-! SUPPORT. The laws of a byte buffer: read after write, the canonical form kept by every operation, equal buffers from
equal reads, and the four lanes of a bus word. -/

namespace Sys2Proof.Machine

@[simp] theorem Memory.read_nil (a : Nat) : Memory.read [] a = Memory.blank := rfl

/-- Cells of larger indexes say nothing about a smaller one. -/
theorem Memory.read_of_lt {m : Memory} {a : Nat} (h : ∀ c ∈ m, a < c.1) : m.read a = Memory.blank := by
  induction m with
  | nil => rfl
  | cons c m ih =>
    have hc := h c (by simp)
    simp only [Memory.read]
    rw [if_neg (by omega)]
    exact ih fun d hd => h d (by simp [hd])

/-- The indexes of a written buffer are old ones or the written one. -/
theorem Memory.mem_write {m : Memory} {a : Nat} {v : Byte} {c : Host.Cell} (h : c ∈ m.write a v) :
    c ∈ m ∨ c = (a, v) ∧ v ≠ Memory.blank := by
  induction m with
  | nil =>
    simp only [Memory.write] at h
    split at h <;> simp_all
  | cons d m ih =>
    simp only [Memory.write] at h
    split at h
    · split at h <;> simp_all
      tauto
    · split at h
      · split at h <;> simp_all
        tauto
      · rcases List.mem_cons.mp h with rfl | h
        · simp
        · rcases ih h with h | h
          · simp [h]
          · exact .inr h

theorem Memory.pairwise_write {m : Memory} (a : Nat) (v : Byte) (h : m.Pairwise fun c d => c.1 < d.1) :
    (m.write a v).Pairwise fun c d => c.1 < d.1 := by
  induction m with
  | nil => simp only [Memory.write]; split <;> simp
  | cons c m ih =>
    obtain ⟨hc, hm⟩ := List.pairwise_cons.mp h
    simp only [Memory.write]
    split
    · rename_i hlt
      split
      · exact h
      · refine List.pairwise_cons.mpr ⟨fun d hd => ?_, h⟩
        rcases List.mem_cons.mp hd with rfl | hd
        · exact hlt
        · exact Nat.lt_trans hlt (hc d hd)
    · split
      · rename_i heq
        split
        · exact hm
        · exact List.pairwise_cons.mpr ⟨fun d hd => by simpa [heq] using hc d hd, hm⟩
      · refine List.pairwise_cons.mpr ⟨fun d hd => ?_, ih hm⟩
        rcases Memory.mem_write hd with hd | ⟨rfl, -⟩
        · exact hc d hd
        · dsimp only; omega

/-- Every write inside the buffer keeps the canonical form. -/
theorem Memory.wf_write {m : Memory} {a : Nat} (v : Byte) (h : m.wf) (ha : a < Config.bufBytes) :
    (m.write a v).wf := by
  refine ⟨Memory.pairwise_write a v h.1, fun c hc => ?_⟩
  rcases Memory.mem_write hc with hc | ⟨rfl, hv⟩
  · exact h.2 c hc
  · exact ⟨ha, hv⟩

theorem Memory.read_write_sorted {m : Memory} (a b : Nat) (v : Byte) (h : m.Pairwise fun c d => c.1 < d.1) :
    (m.write a v).read b = if b = a then v else m.read b := by
  induction m with
  | nil =>
    simp only [Memory.write]
    split
    · rename_i hv
      simp [hv]
    · simp [Memory.read]
  | cons c m ih =>
    obtain ⟨hc, hm⟩ := List.pairwise_cons.mp h
    simp only [Memory.write]
    split
    · rename_i hlt
      split
      · rename_i hv
        split
        · rename_i hb
          rw [Memory.read_of_lt, hv]
          intro d hd
          rcases List.mem_cons.mp hd with rfl | hd
          · omega
          · have := hc d hd; omega
        · rfl
      · simp only [Memory.read]
    · split
      · rename_i heq
        subst heq
        split
        · rename_i hv
          simp only [Memory.read]
          split
          · rename_i hb
            rw [Memory.read_of_lt, hv]
            exact fun d hd => hb ▸ hc d hd
          · rfl
        · simp only [Memory.read]
          split <;> rfl
      · simp only [Memory.read]
        split
        · rename_i hb
          rw [if_neg (by omega)]
        · exact ih hm

/-- A read after a write to the same place gives the value written. -/
theorem Memory.read_write_same {m : Memory} (a : Nat) (v : Byte) (h : m.wf) : (m.write a v).read a = v := by
  simp [Memory.read_write_sorted a a v h.1]

/-- A write leaves every other place alone. -/
theorem Memory.read_write_other {m : Memory} {a b : Nat} (v : Byte) (h : m.wf) (hb : b ≠ a) :
    (m.write a v).read b = m.read b := by
  simp [Memory.read_write_sorted a b v h.1, hb]

/-- Canonical buffers that read alike everywhere are equal. -/
theorem Memory.ext_read {m n : Memory} (hm : m.wf) (hn : n.wf) (h : ∀ a, m.read a = n.read a) : m = n := by
  induction m generalizing n with
  | nil =>
    cases n with
    | nil => rfl
    | cons d n =>
      have := h d.1
      simp only [Memory.read, if_true] at this
      exact absurd this.symm (hn.2 d (by simp)).2
  | cons c m ih =>
    obtain ⟨hc, hm'⟩ := List.pairwise_cons.mp hm.1
    have hm2 : Memory.wf m := ⟨hm', fun d hd => hm.2 d (by simp [hd])⟩
    have hcb := (hm.2 c (by simp)).2
    cases n with
    | nil =>
      have := h c.1
      simp only [Memory.read, if_true] at this
      exact absurd this hcb
    | cons d n =>
      obtain ⟨hd, hn'⟩ := List.pairwise_cons.mp hn.1
      have hn2 : Memory.wf n := ⟨hn', fun e he => hn.2 e (by simp [he])⟩
      have hdb := (hn.2 d (by simp)).2
      have hidx : c.1 = d.1 := by
        rcases Nat.lt_trichotomy c.1 d.1 with hlt | heq | hlt
        · have := h c.1
          rw [Memory.read_of_lt (m := d :: n)] at this
          · simp only [Memory.read, if_true] at this
            exact absurd this hcb
          · intro e he
            rcases List.mem_cons.mp he with rfl | he
            · exact hlt
            · exact Nat.lt_trans hlt (hd e he)
        · exact heq
        · have := h d.1
          rw [Memory.read_of_lt (m := c :: m)] at this
          · simp only [Memory.read, if_true] at this
            exact absurd this.symm hdb
          · intro e he
            rcases List.mem_cons.mp he with rfl | he
            · exact hlt
            · exact Nat.lt_trans hlt (hc e he)
      have hval : c.2 = d.2 := by
        have := h c.1
        simpa [Memory.read, hidx] using this
      have htail : m = n := by
        refine ih hm2 hn2 fun a => ?_
        by_cases ha : a = c.1
        · subst ha
          rw [Memory.read_of_lt hc, Memory.read_of_lt fun e he => hidx ▸ hd e he]
        · have := h a
          simpa [Memory.read, ha, ← hidx] using this
      rw [htail, Prod.ext hidx hval]

/-! ## Bus words -/

theorem Memory.wf_writeBytes {m : Memory} (vs : List Byte) {a : Nat} (h : m.wf)
    (ha : a + vs.length ≤ Config.bufBytes) : (m.writeBytes a vs).wf := by
  induction vs generalizing m a with
  | nil => exact h
  | cons v vs ih =>
    simp only [List.length_cons] at ha
    exact ih (Memory.wf_write v h (by omega)) (by omega)

theorem Memory.read_writeBytes_outside {m : Memory} (vs : List Byte) {a b : Nat} (h : m.wf)
    (ha : a + vs.length ≤ Config.bufBytes) (hb : b < a ∨ a + vs.length ≤ b) :
    (m.writeBytes a vs).read b = m.read b := by
  induction vs generalizing m a with
  | nil => rfl
  | cons v vs ih =>
    simp only [List.length_cons] at ha hb
    simp only [Memory.writeBytes]
    rw [ih (Memory.wf_write v h (by omega)) (by omega) (by omega), Memory.read_write_other v h (by omega)]

theorem Memory.read_writeBytes_inside {m : Memory} (vs : List Byte) {a j : Nat} (h : m.wf)
    (ha : a + vs.length ≤ Config.bufBytes) (hj : j < vs.length) :
    (m.writeBytes a vs).read (a + j) = vs[j] := by
  induction vs generalizing m a j with
  | nil => simp at hj
  | cons v vs ih =>
    simp only [List.length_cons] at ha hj
    simp only [Memory.writeBytes]
    have hw := Memory.wf_write v h (show a < Config.bufBytes by omega)
    cases j with
    | zero => simpa using
        (Memory.read_writeBytes_outside vs hw (by omega) (.inl (by omega))).trans (Memory.read_write_same a v h)
    | succ j =>
      have := ih (m := m.write a v) (a := a + 1) (j := j) hw (by omega) (by omega)
      simpa [Nat.add_assoc, Nat.add_comm 1 j] using this

theorem bigEndian_length (v : Word) : (bigEndian v).length = 4 := rfl

/-- A bus write of a buffer word keeps the canonical form. -/
theorem Memory.wf_writeWord {m : Memory} {i : Nat} (v : Word) (h : m.wf) (hi : i < 1024) : (m.writeWord i v).wf :=
  Memory.wf_writeBytes _ h (by simp only [bigEndian_length, Config.bufBytes]; omega)

/-- Byte j of a written bus word. -/
theorem Memory.read_writeWord_inside {m : Memory} {i j : Nat} (v : Word) (h : m.wf) (hi : i < 1024) (hj : j < 4) :
    (m.writeWord i v).read (4 * i + j) = v.extractLsb' (24 - 8 * j) 8 := by
  have := Memory.read_writeBytes_inside (bigEndian v) (a := 4 * i) (j := j) h
    (by simp only [bigEndian_length, Config.bufBytes]; omega) (by simp only [bigEndian_length]; omega)
  rw [Memory.writeWord, this]
  match j, hj with
  | 0, _ => rfl
  | 1, _ => rfl
  | 2, _ => rfl
  | 3, _ => rfl

theorem Memory.read_writeWord_outside {m : Memory} {i b : Nat} (v : Word) (h : m.wf) (hi : i < 1024)
    (hb : b < 4 * i ∨ 4 * i + 4 ≤ b) : (m.writeWord i v).read b = m.read b :=
  Memory.read_writeBytes_outside _ h (by simp only [bigEndian_length, Config.bufBytes]; omega)
    (by simpa only [bigEndian_length] using hb)

theorem append_bigEndian (v : Word) :
    v.extractLsb' 24 8 ++ v.extractLsb' 16 8 ++ v.extractLsb' 8 8 ++ v.extractLsb' 0 8 = v := by
  ext i hi
  simp only [BitVec.getElem_append, BitVec.getElem_extractLsb']
  split
  · simp [BitVec.getLsbD_eq_getElem, *]
  · split
    · simp [show 8 + (i - 8) = i by omega, BitVec.getLsbD_eq_getElem, *]
    · split
      · simp [show 16 + (i - 8 - 8) = i by omega, BitVec.getLsbD_eq_getElem, *]
      · simp [show 24 + (i - 8 - 8 - 8) = i by omega, BitVec.getLsbD_eq_getElem, *]

/-- A buffer word reads back as written (R82). -/
theorem Memory.readWord_writeWord_same {m : Memory} {i : Nat} (v : Word) (h : m.wf) (hi : i < 1024) :
    (m.writeWord i v).readWord i = v := by
  have h0 := Memory.read_writeWord_inside v h hi (j := 0) (by omega)
  have h1 := Memory.read_writeWord_inside v h hi (j := 1) (by omega)
  have h2 := Memory.read_writeWord_inside v h hi (j := 2) (by omega)
  have h3 := Memory.read_writeWord_inside v h hi (j := 3) (by omega)
  simp only [Nat.add_zero, Nat.mul_zero, Nat.sub_zero, Nat.mul_one, Nat.reduceMul, Nat.reduceSub] at h0 h1 h2 h3
  simp only [Memory.readWord, h0, h1, h2, h3]
  exact append_bigEndian v

theorem Memory.readWord_writeWord_other {m : Memory} {i k : Nat} (v : Word) (h : m.wf) (hi : i < 1024)
    (hk : k ≠ i) : (m.writeWord i v).readWord k = m.readWord k := by
  simp only [Memory.readWord]
  rw [Memory.read_writeWord_outside v h hi (by omega), Memory.read_writeWord_outside v h hi (by omega),
    Memory.read_writeWord_outside v h hi (by omega), Memory.read_writeWord_outside v h hi (by omega)]

end Sys2Proof.Machine
end

