-- ==== Sys2Proof/Laws/Bits.lean ====
section
/-! SUPPORT. The laws of the bit stream: a written bit reads back and the others stay, what a group of bits reads as,
that reading a group that was just written gives it back, and the canonical form. -/

namespace Sys2Proof.Machine

/-! ## One bit -/

/-- Setting bit i of a byte sets that bit and leaves the other seven (43_bit_writer.md R191). -/
theorem withBit_getLsbD (x : Byte) {i j : Nat} (b : Bool) (hi : i < 8) (hj : j < 8) :
    (withBit x i b).getLsbD j = if j = i then b else x.getLsbD j := by
  revert x b
  have : ∀ i : Fin 8, ∀ j : Fin 8, ∀ b : Bool, ∀ x : Byte,
      (withBit x i.val b).getLsbD j.val = if j.val = i.val then b else x.getLsbD j.val := by
    intro i j b x
    have hx : ((1 : Byte) <<< i.val).getLsbD j.val = decide (j.val = i.val) := by
      revert i j; decide
    have hz : ((0 : Byte) <<< i.val).getLsbD j.val = false := by
      revert i j; decide
    simp only [withBit, BitVec.getLsbD_or, BitVec.getLsbD_and, BitVec.getLsbD_not, j.isLt, decide_true, Bool.true_and]
    cases b
    · simp only [hx, hz, Bool.false_eq_true, if_false]
      by_cases h : j.val = i.val <;> simp [h]
    · simp only [hx, if_true]
      by_cases h : j.val = i.val <;> simp [h]
  exact fun x b => this ⟨i, hi⟩ ⟨j, hj⟩ b x

theorem Memory.wf_setBit {m : Memory} {n : Nat} (b : Bool) (h : m.wf) (hn : n < 8 * Config.bufBytes) :
    (m.setBit n b).wf :=
  Memory.wf_write _ h (by omega)

/-- A written bit reads back. -/
theorem Memory.bit_setBit_same {m : Memory} (n : Nat) (b : Bool) (h : m.wf) : (m.setBit n b).bit n = b := by
  simp [Memory.bit, Memory.setBit, Memory.read_write_same _ _ h,
    withBit_getLsbD _ b (show 7 - n % 8 < 8 by omega) (show 7 - n % 8 < 8 by omega)]

/-- Every other bit of the stream is unchanged, those of the same byte too. -/
theorem Memory.bit_setBit_other {m : Memory} {n k : Nat} (b : Bool) (h : m.wf) (hk : k ≠ n) :
    (m.setBit n b).bit k = m.bit k := by
  simp only [Memory.bit, Memory.setBit]
  by_cases hd : k / 8 = n / 8
  · rw [hd, Memory.read_write_same _ _ h,
      withBit_getLsbD _ b (show 7 - n % 8 < 8 by omega) (show 7 - k % 8 < 8 by omega), if_neg (by omega)]
  · rw [Memory.read_write_other _ h hd]

/-- A byte is its eight stream bits. -/
theorem Memory.read_eq_of_bits {m n : Memory} {a : Nat} (h : ∀ j < 8, m.bit (8 * a + j) = n.bit (8 * a + j)) :
    m.read a = n.read a := by
  ext i hi
  have := h (7 - i) (by omega)
  simp only [Memory.bit] at this
  rw [show (8 * a + (7 - i)) / 8 = a by omega, show 7 - (8 * a + (7 - i)) % 8 = i by omega] at this
  simpa [BitVec.getLsbD_eq_getElem hi] using this

/-- `Memory.bit` is the spec's own expression (42_bit_reader.md R181). -/
theorem Memory.streamBit_eq (m : Memory) (n : Nat) : m.streamBit n = (m.bit n).toNat := by
  simp only [Memory.streamBit, Memory.bit, Nat.and_one_is_mod, BitVec.getLsbD, Nat.testBit,
    Nat.and_comm 1]
  rcases Nat.mod_two_eq_zero_or_one ((m.read (n / 8)).toNat >>> (7 - n % 8)) with h | h <;> simp [h]

/-! ## A group read -/

theorem Memory.readBits_lt (m : Memory) (pos k : Nat) : m.readBits pos k < 2 ^ k := by
  induction k with
  | zero => simp [Memory.readBits]
  | succ k ih =>
    simp only [Memory.readBits, Nat.pow_succ]
    have := Bool.toNat_lt (m.bit (pos + k))
    omega

/-- A group is the group of its first bits followed by the group of the rest. -/
theorem Memory.readBits_add (m : Memory) (pos j k : Nat) :
    m.readBits pos (j + k) = m.readBits pos j * 2 ^ k + m.readBits (pos + j) k := by
  induction k with
  | zero => simp [Memory.readBits]
  | succ k ih =>
    rw [← Nat.add_assoc, Memory.readBits, ih, Memory.readBits, Nat.pow_succ, Nat.add_assoc pos j k]
    ring

/-- `Memory.readBits` is the sum that 42_bit_reader.md R182 writes. -/
theorem Memory.streamBits_eq (m : Memory) (pos k : Nat) : m.streamBits pos k = m.readBits pos k := by
  induction k with
  | zero => rfl
  | succ k ih =>
    rw [Memory.readBits, ← ih, Memory.streamBits, Memory.streamBits, List.range_succ, List.map_append, List.sum_append]
    simp only [List.map_cons, List.map_nil, List.sum_cons, List.sum_nil, Nat.add_sub_cancel, Nat.sub_self,
      Nat.shiftLeft_zero, Nat.add_zero, Memory.streamBit_eq]
    congr 1
    rw [← List.sum_map_mul_left]
    refine congrArg List.sum (List.map_congr_left fun j hj => ?_)
    have hj := List.mem_range.mp hj
    rw [Nat.shiftLeft_eq, Nat.shiftLeft_eq, show k - j = k - 1 - j + 1 by omega, Nat.pow_succ]
    ring

theorem Memory.readBits_congr {m n : Memory} {pos k : Nat} (h : ∀ j < k, m.bit (pos + j) = n.bit (pos + j)) :
    m.readBits pos k = n.readBits pos k := by
  induction k with
  | zero => rfl
  | succ k ih =>
    simp only [Memory.readBits]
    rw [ih fun j hj => h j (by omega), h k (by omega)]

/-! ## A group written -/

theorem Memory.wf_writeBits {m : Memory} {pos k : Nat} (v : Nat) (h : m.wf) (hk : pos + k ≤ 8 * Config.bufBytes) :
    (m.writeBits pos k v).wf := by
  induction k generalizing v with
  | zero => exact h
  | succ k ih => exact Memory.wf_setBit _ (ih (v / 2) (by omega)) (by omega)

/-- Bits outside the group keep their values (43_bit_writer.md R196). -/
theorem Memory.bit_writeBits_outside {m : Memory} {pos k n : Nat} (v : Nat) (h : m.wf)
    (hk : pos + k ≤ 8 * Config.bufBytes) (hn : n < pos ∨ pos + k ≤ n) : (m.writeBits pos k v).bit n = m.bit n := by
  induction k generalizing v with
  | zero => rfl
  | succ k ih =>
    simp only [Memory.writeBits]
    rw [Memory.bit_setBit_other _ (Memory.wf_writeBits _ h (by omega)) (by omega), ih (v / 2) (by omega) (by omega)]

/-- Bit j of the group is v's bit k - 1 - j (43_bit_writer.md R192). -/
theorem Memory.bit_writeBits_inside {m : Memory} {pos k j : Nat} (v : Nat) (h : m.wf)
    (hk : pos + k ≤ 8 * Config.bufBytes) (hj : j < k) :
    (m.writeBits pos k v).bit (pos + j) = v.testBit (k - 1 - j) := by
  induction k generalizing v with
  | zero => omega
  | succ k ih =>
    simp only [Memory.writeBits]
    have hw := Memory.wf_writeBits (pos := pos) (k := k) (v / 2) h (by omega)
    by_cases hjk : j = k
    · subst hjk
      rw [Memory.bit_setBit_same _ _ hw]
      simp
    · rw [Memory.bit_setBit_other _ hw (by omega), ih (v / 2) (by omega) (by omega),
        show k + 1 - 1 - j = (k - 1 - j) + 1 by omega, Nat.testBit_add_one]

/-- Reading back a group that was just written gives it. -/
theorem Memory.readBits_writeBits {m : Memory} {pos k : Nat} (v : Nat) (h : m.wf)
    (hk : pos + k ≤ 8 * Config.bufBytes) : (m.writeBits pos k v).readBits pos k = v % 2 ^ k := by
  induction k generalizing v with
  | zero => simp [Memory.readBits, Nat.mod_one]
  | succ k ih =>
    simp only [Memory.writeBits, Memory.readBits]
    have hw := Memory.wf_writeBits (pos := pos) (k := k) (v / 2) h (by omega)
    rw [Memory.bit_setBit_same _ _ hw,
      Memory.readBits_congr (n := m.writeBits pos k (v / 2)) fun j hj =>
        Memory.bit_setBit_other _ hw (by omega),
      ih (v / 2) (by omega), Nat.pow_succ, Nat.mul_comm (2 ^ k) 2, Nat.mod_mul]
    rcases Nat.mod_two_eq_zero_or_one v with hv | hv
    · simp [hv]
    · simp [hv, Nat.add_comm]

/-- Bit n of a number, as the spec writes it: `(v >> n) & 1`. -/
theorem testBit_toNat (v n : Nat) : (v.testBit n).toNat = (v >>> n) &&& 1 := by
  rw [Nat.testBit_eq_decide_div_mod_eq, Nat.shiftRight_eq_div_pow, Nat.and_one_is_mod]
  rcases Nat.mod_two_eq_zero_or_one (v / 2 ^ n) with h | h <;> simp [h]

/-- Bytes that hold no bit of a written group keep their value. -/
theorem Memory.read_writeBits_outside {m : Memory} {pos k n : Nat} (v : Nat) (h : m.wf)
    (hk : pos + k ≤ 8 * Config.bufBytes) (hn : n < pos / 8 ∨ pos + k ≤ 8 * n) :
    (m.writeBits pos k v).read n = m.read n :=
  Memory.read_eq_of_bits fun _ _ => Memory.bit_writeBits_outside v h hk (by omega)

end Sys2Proof.Machine
end

