-- ==== Sys2Proof/Laws/Operands.lean ====
section
/-! SUPPORT. The laws of the operand checks and of the small numbers: field elements, widths, indexes, trailing zeros. -/

namespace Sys2Proof.Machine

theorem fieldElement_of_lt {v : Word} (h : v.toNat < Config.p) : fieldElement v = some v.toNat := by
  simp [fieldElement, h]

theorem fieldElement_of_ge {v : Word} (h : Config.p ≤ v.toNat) : fieldElement v = none := by
  simp [fieldElement, h]

theorem fieldElement_eq_some {v : Word} {a : Nat} (h : fieldElement v = some a) : a = v.toNat ∧ a < Config.p := by
  simp only [fieldElement] at h
  split at h
  · rename_i hv
    obtain rfl := Option.some.inj h
    exact ⟨rfl, hv⟩
  · simp at h

theorem fieldElement_eq_none {v : Word} : fieldElement v = none ↔ Config.p ≤ v.toNat := by
  simp [fieldElement]

theorem fieldElement_isNone {v : Word} : (fieldElement v).isNone = true ↔ Config.p ≤ v.toNat := by
  simp [fieldElement_eq_none]

theorem coefIndex_of_lt {v : Word} (h : v.toNat < 256) : coefIndex v = some ⟨v.toNat, h⟩ := by
  simp [coefIndex, h]

theorem coefIndex_of_ge {v : Word} (h : 256 ≤ v.toNat) : coefIndex v = none := by
  simp [coefIndex, h]

theorem legalWidth_iff {k : Nat} : legalWidth k = true ↔ 1 ≤ k ∧ k ≤ 32 := by
  simp only [legalWidth, Bool.and_eq_true, decide_eq_true_eq]
  exact Iff.rfl

theorem legalWidth_false_iff {k : Nat} : legalWidth k = false ↔ k = 0 ∨ 32 < k := by
  rw [← Bool.not_eq_true, legalWidth_iff]
  omega

theorem p_lt_word : Config.p < 2 ^ 32 := by decide

theorem wordOf_toNat {n : Nat} (h : n < 2 ^ 32) : (wordOf n).toNat = n := by
  simp only [wordOf, BitVec.toNat_ofNat]
  exact Nat.mod_eq_of_lt h

theorem wordOf_self (v : Word) : wordOf v.toNat = v := by simp [wordOf]

theorem lowBits_lt (k : Nat) (v : Word) : lowBits k v < 2 ^ k := Nat.mod_lt _ (Nat.two_pow_pos k)

/-- Of a nonzero number below 2^k, the lowest 1 stands at bit `trailingZeros k v`. -/
theorem trailingZeros_spec {k v : Nat} (h0 : v ≠ 0) (hk : v < 2 ^ k) :
    trailingZeros k v < k ∧ v % 2 ^ (trailingZeros k v + 1) = 2 ^ trailingZeros k v := by
  induction k generalizing v with
  | zero => omega
  | succ k ih =>
    simp only [trailingZeros]
    split
    · rename_i h
      exact ⟨by omega, by simpa using h⟩
    · rename_i h
      have h2 : v / 2 ≠ 0 := by omega
      obtain ⟨h3, h4⟩ := ih h2 (by rw [Nat.pow_succ] at hk; omega)
      refine ⟨by omega, ?_⟩
      rw [Nat.pow_succ, Nat.mul_comm, Nat.mod_mul, h4]
      omega

/-- The place of the lowest 1 is the only number with that property. -/
theorem eq_of_mod_pow {v a b : Nat} (ha : v % 2 ^ (a + 1) = 2 ^ a) (hb : v % 2 ^ (b + 1) = 2 ^ b) : a = b := by
  have key : ∀ c d : Nat, v % 2 ^ (c + 1) = 2 ^ c → v % 2 ^ (d + 1) = 2 ^ d → ¬ c < d := by
    intro c d hc hd hlt
    have h1 : v % 2 ^ (d + 1) % 2 ^ (c + 1) = v % 2 ^ (c + 1) :=
      Nat.mod_mod_of_dvd v (Nat.pow_dvd_pow 2 (by omega))
    rw [hd, hc] at h1
    have h2 : 2 ^ d % 2 ^ (c + 1) = 0 := Nat.mod_eq_zero_of_dvd (Nat.pow_dvd_pow 2 (by omega))
    have := Nat.two_pow_pos c
    omega
  have := key a b ha hb
  have := key b a hb ha
  omega

/-- The padding length of a block is at most its width (43_bit_writer.md R193). -/
theorem paddingLength_spec {k v : Nat} (h0 : v ≠ 0) (hk : v < 2 ^ k) :
    1 ≤ paddingLength k v ∧ paddingLength k v ≤ k ∧ v % 2 ^ paddingLength k v = 2 ^ (paddingLength k v - 1) := by
  obtain ⟨h1, h2⟩ := trailingZeros_spec h0 hk
  exact ⟨by simp [paddingLength], by simp only [paddingLength]; omega, by simpa [paddingLength] using h2⟩

/-- FSAMPLE's mask keeps bits 30:0 (44_field_arith.md R203). -/
theorem mask31_toNat (v : Word) : (v &&& 0x7FFFFFFF#32).toNat = v.toNat % 2 ^ 31 := by
  rw [BitVec.toNat_and]
  exact Nat.and_two_pow_sub_one_eq_mod _ 31

/-- FSUB's difference is the residue in [0, p) (44_field_arith.md R201). -/
theorem fieldSub_spec (a b : Nat) :
    fieldSub a b < Config.p ∧ ((fieldSub a b : Nat) : Int) = ((a : Int) - b) % Config.p := by
  have h1 := Int.emod_nonneg ((a : Int) - b) (show (Config.p : Int) ≠ 0 by decide)
  have h2 := Int.emod_lt_of_pos ((a : Int) - b) (show 0 < (Config.p : Int) by decide)
  simp only [fieldSub]
  omega

end Sys2Proof.Machine
end

