-- ==== Sys2Proof/Laws/Exec.lean ====
section
/-! SUPPORT. What a completion can do, said once: a command either fails, and then only STATUS says so, or succeeds with
exactly the effects its rule gives. Later proofs cite `exec_cases` and never unfold a meaning. -/

namespace Sys2Proof.Machine

@[simp] theorem complete_eq (s : State) : complete s = .next s.succeeded := rfl

@[simp] theorem raise_eq (e : CmdError) (s : State) : raise e s = .next (s.failedWith e.code) := rfl

/-- The error codes in use are 1 to 7 (60_exceptions.md R240). -/
theorem CmdError.code_bounds (e : CmdError) : 1 ≤ e.code.toNat ∧ e.code.toNat ≤ 7 := by
  cases e <;> decide

/-- The effects of a successful command: `u` is `s` with them applied (40_command_cycle.md R141). -/
def Effects (i : Instr) (s u : State) : Prop :=
  match i with
  | .nop => u = s
  | .finv rd rs1 => ∃ a x, fieldElement (s.readF rs1) = some a ∧ inverse a = some x ∧ u = s.writeF rd (wordOf x)
  | .rdbits rd k =>
    legalWidth k = true ∧ s.rdLen.toNat ≤ Config.bufBytes ∧
      ((s.status.eos = true ∧ u = s.setNone) ∨
       (s.status.eos = false ∧ k ≤ s.realLeft ∧
        u = (s.writeF rd (wordOf (s.rdbuf.readBits s.rdPos.toNat k))).setRdPos (s.rdPos.toNat + k)) ∨
       (s.status.eos = false ∧ s.realLeft < k ∧
        u = ((s.writeF rd (wordOf (paddingGroup (s.rdbuf.readBits s.rdPos.toNat s.realLeft) s.realLeft k))).setRdPos
          (s.rdPos.toNat + s.realLeft)).setEos))
  | .wrblk rs1 k =>
    legalWidth k = true ∧ s.wrCap.toNat ≤ Config.bufBytes ∧ s.status.wfin = false ∧
      s.wrTotal.toNat + k ≤ s.bitCapacity ∧ u = s.append k (lowBits k (s.readF rs1))
  | .wrfin rd rs1 k =>
    legalWidth k = true ∧ s.wrCap.toNat ≤ Config.bufBytes ∧ s.status.wfin = false ∧ lowBits k (s.readF rs1) ≠ 0 ∧
      s.wrTotal.toNat + (k - paddingLength k (lowBits k (s.readF rs1))) ≤ s.bitCapacity ∧
      u = s.finalize rd (k - paddingLength k (lowBits k (s.readF rs1)))
        (lowBits k (s.readF rs1) >>> paddingLength k (lowBits k (s.readF rs1)))
  | .fadd rd rs1 rs2 => ∃ a b, fieldElement (s.readF rs1) = some a ∧ fieldElement (s.readF rs2) = some b ∧
      u = s.writeF rd (wordOf (fieldAdd a b))
  | .fsub rd rs1 rs2 => ∃ a b, fieldElement (s.readF rs1) = some a ∧ fieldElement (s.readF rs2) = some b ∧
      u = s.writeF rd (wordOf (fieldSub a b))
  | .fmul rd rs1 rs2 => ∃ a b, fieldElement (s.readF rs1) = some a ∧ fieldElement (s.readF rs2) = some b ∧
      u = s.writeF rd (wordOf (fieldMul a b))
  | .fsample rd rs1 =>
    (Config.p ≤ (s.readF rs1 &&& 0x7FFFFFFF#32).toNat ∧ u = s.setRej) ∨
    ((s.readF rs1 &&& 0x7FFFFFFF#32).toNat < Config.p ∧ u = s.writeF rd (s.readF rs1 &&& 0x7FFFFFFF#32))
  | .peval rd rs1 => ∃ x, 1 ≤ s.pcount.toNat ∧ s.pcount.toNat ≤ Config.coefDepth ∧
      fieldElement (s.readF rs1) = some x ∧ (∀ c ∈ s.polynomial, c.toNat < Config.p) ∧
      u = s.writeF rd (wordOf (horner x (s.polynomial.map fun c => c.toNat)))
  | .czero => u = s.clearCoef
  | .cput rs1 rs2 => ∃ j a, coefIndex (s.readF rs2) = some j ∧ fieldElement (s.readF rs1) = some a ∧
      u = s.writeCoef j (s.readF rs1)
  | .cget rd rs2 => ∃ j, coefIndex (s.readF rs2) = some j ∧ u = s.writeF rd (s.readCoef j)

theorem fieldBinary_cases (op : Nat → Nat → Nat) (rd rs1 rs2 : Reg) (s : State) :
    (∃ e, fieldBinary op rd rs1 rs2 s = .next (s.failedWith (CmdError.code e))) ∨
    ∃ u, fieldBinary op rd rs1 rs2 s = .next u.succeeded ∧
      ∃ a b, fieldElement (s.readF rs1) = some a ∧ fieldElement (s.readF rs2) = some b ∧
        u = s.writeF rd (wordOf (op a b)) := by
  simp only [fieldBinary]
  split
  · exact .inl ⟨_, rfl⟩
  · rename_i a ha
    split
    · exact .inl ⟨_, rfl⟩
    · rename_i b hb
      exact .inr ⟨_, rfl, a, b, ha, hb, rfl⟩

/-- Every command fails or succeeds, from every state; it never stops the machine. -/
theorem exec_cases (i : Instr) (s : State) :
    (∃ e, exec i s = .next (s.failedWith (CmdError.code e))) ∨
    ∃ u, exec i s = .next u.succeeded ∧ Effects i s u := by
  cases i with
  | nop => exact .inr ⟨s, rfl, rfl⟩
  | czero => exact .inr ⟨_, rfl, rfl⟩
  | finv rd rs1 =>
    simp only [exec, execFinv, Effects]
    split
    · exact .inl ⟨_, rfl⟩
    · rename_i a ha
      split
      · exact .inl ⟨_, rfl⟩
      · rename_i x hx
        exact .inr ⟨_, rfl, a, x, ha, hx, rfl⟩
  | rdbits rd k =>
    simp only [exec, execRdbits, Effects]
    split
    · exact .inl ⟨_, rfl⟩
    · rename_i hk
      split
      · exact .inl ⟨_, rfl⟩
      · rename_i hl
        have hk : legalWidth k = true := by simpa using hk
        have hl : s.rdLen.toNat ≤ Config.bufBytes := by omega
        split
        · rename_i he
          exact .inr ⟨_, rfl, hk, hl, .inl ⟨he, rfl⟩⟩
        · rename_i he
          have he : s.status.eos = false := by simpa using he
          split
          · rename_i hr
            exact .inr ⟨_, rfl, hk, hl, .inr (.inl ⟨he, hr, rfl⟩)⟩
          · rename_i hr
            exact .inr ⟨_, rfl, hk, hl, .inr (.inr ⟨he, by omega, rfl⟩)⟩
  | wrblk rs1 k =>
    simp only [exec, execWrblk, Effects]
    repeat' split
    · exact .inl ⟨_, rfl⟩
    · exact .inl ⟨_, rfl⟩
    · exact .inl ⟨_, rfl⟩
    · exact .inl ⟨_, rfl⟩
    · rename_i hk hc hw ht
      exact .inr ⟨_, rfl, by simpa using hk, by omega, by simpa using hw, by omega, rfl⟩
  | wrfin rd rs1 k =>
    simp only [exec, execWrfin, Effects]
    repeat' split
    · exact .inl ⟨_, rfl⟩
    · exact .inl ⟨_, rfl⟩
    · exact .inl ⟨_, rfl⟩
    · exact .inl ⟨_, rfl⟩
    · exact .inl ⟨_, rfl⟩
    · rename_i hk hc hw hv ht
      exact .inr ⟨_, rfl, by simpa using hk, by omega, by simpa using hw, hv, by omega, rfl⟩
  | fadd rd rs1 rs2 => exact fieldBinary_cases fieldAdd rd rs1 rs2 s
  | fsub rd rs1 rs2 => exact fieldBinary_cases fieldSub rd rs1 rs2 s
  | fmul rd rs1 rs2 => exact fieldBinary_cases fieldMul rd rs1 rs2 s
  | fsample rd rs1 =>
    simp only [exec, execFsample, Effects]
    split
    · rename_i h
      exact .inr ⟨_, rfl, .inl ⟨h, rfl⟩⟩
    · rename_i h
      exact .inr ⟨_, rfl, .inr ⟨by omega, rfl⟩⟩
  | peval rd rs1 =>
    simp only [exec, execPeval, Effects]
    split
    · exact .inl ⟨_, rfl⟩
    · rename_i hp
      split
      · exact .inl ⟨_, rfl⟩
      · rename_i x hx
        split
        · exact .inl ⟨_, rfl⟩
        · rename_i hc
          refine .inr ⟨_, rfl, x, by omega, by omega, hx, fun c hm => ?_, rfl⟩
          by_contra hge
          exact hc (List.any_eq_true.mpr ⟨c, hm, fieldElement_isNone.mpr (by omega)⟩)
  | cput rs1 rs2 =>
    simp only [exec, execCput, Effects]
    split
    · exact .inl ⟨_, rfl⟩
    · rename_i j hj
      split
      · exact .inl ⟨_, rfl⟩
      · rename_i a ha
        exact .inr ⟨_, rfl, j, a, hj, ha, rfl⟩
  | cget rd rs2 =>
    simp only [exec, execCget, Effects]
    split
    · exact .inl ⟨_, rfl⟩
    · rename_i j hj
      exact .inr ⟨_, rfl, j, hj, rfl⟩

/-- A command always answers a next state. -/
theorem exec_next (i : Instr) (s : State) : ∃ t, exec i s = .next t := by
  rcases exec_cases i s with ⟨e, h⟩ | ⟨u, h, -⟩
  · exact ⟨_, h⟩
  · exact ⟨_, h⟩

/-- What no command ever writes (10_state.md, column "written by commands"). -/
theorem Effects.untouched {i : Instr} {s u : State} (h : Effects i s u) :
    u.rdbuf = s.rdbuf ∧ u.cmd = s.cmd ∧ u.rdLen = s.rdLen ∧ u.wrCap = s.wrCap ∧ u.pcount = s.pcount ∧ u.bus = s.bus ∧
      u.status.busy = s.status.busy ∧ u.status.done = s.status.done ∧ u.status.err = s.status.err ∧
      u.status.ecode = s.status.ecode ∧ u.status.wbusy = s.status.wbusy := by
  cases i <;> simp only [Effects] at h
  case nop => subst h; simp
  case czero => subst h; simp
  case finv => obtain ⟨a, x, -, -, rfl⟩ := h; simp
  case rdbits => obtain ⟨-, -, ⟨-, rfl⟩ | ⟨-, -, rfl⟩ | ⟨-, -, rfl⟩⟩ := h <;> simp
  case wrblk => obtain ⟨-, -, -, -, rfl⟩ := h; simp
  case wrfin => obtain ⟨-, -, -, -, -, rfl⟩ := h; simp
  case fadd => obtain ⟨a, b, -, -, rfl⟩ := h; simp
  case fsub => obtain ⟨a, b, -, -, rfl⟩ := h; simp
  case fmul => obtain ⟨a, b, -, -, rfl⟩ := h; simp
  case fsample => obtain ⟨-, rfl⟩ | ⟨-, rfl⟩ := h <;> simp
  case peval => obtain ⟨x, -, -, -, -, rfl⟩ := h; simp
  case cput => obtain ⟨j, a, -, -, rfl⟩ := h; simp
  case cget => obtain ⟨j, -, rfl⟩ := h; simp

/-- The padding group as a sum: the real bits, a 1, zeros (42_bit_reader.md R182). -/
theorem paddingGroup_eq {real left k : Nat} (h : left < k) :
    paddingGroup real left k = real * 2 ^ (k - left) + 2 ^ (k - left - 1) := by
  have hlt : 1 <<< (k - left - 1) < 2 ^ (k - left) := by
    rw [Nat.one_shiftLeft]
    exact Nat.pow_lt_pow_right (by omega) (by omega)
  rw [paddingGroup, ← Nat.shiftLeft_add_eq_or_of_lt hlt, Nat.shiftLeft_eq, Nat.one_shiftLeft]

theorem paddingGroup_lt {real left k : Nat} (h : left < k) (hr : real < 2 ^ left) : paddingGroup real left k < 2 ^ k := by
  rw [paddingGroup_eq h]
  have h1 : 2 ^ (k - left) = 2 ^ (k - left - 1) + 2 ^ (k - left - 1) := by
    rw [← Nat.two_mul, ← Nat.pow_succ']
    congr 1
    omega
  have h2 : 2 ^ k = 2 ^ left * 2 ^ (k - left) := by
    rw [← Nat.pow_add]
    congr 1
    omega
  have h3 : (real + 1) * 2 ^ (k - left) ≤ 2 ^ left * 2 ^ (k - left) := Nat.mul_le_mul_right _ hr
  have := Nat.two_pow_pos (k - left - 1)
  rw [Nat.add_mul] at h3
  omega

/-! ## The bus is no part of a completion -/

/-- A change of the next state, where there is one. -/
def onNext (g : State → State) (o : Host.Outcome State Fault Refusal) : Host.Outcome State Fault Refusal :=
  match o with
  | .next t => .next (g t)
  | .fault r => .fault r
  | .refused r => .refused r

theorem fieldBinary_setBus (op : Nat → Nat → Nat) (rd rs1 rs2 : Reg) (s : State) (b : Bus) :
    fieldBinary op rd rs1 rs2 { s with bus := b } =
      onNext (fun t => { t with bus := b }) (fieldBinary op rd rs1 rs2 s) := by
  simp only [fieldBinary, State.readF]
  repeat' split
  all_goals rfl

theorem exec_setBus (i : Instr) (s : State) (b : Bus) :
    exec i { s with bus := b } = onNext (fun t => { t with bus := b }) (exec i s) := by
  cases i with
  | nop => rfl
  | czero => rfl
  | finv rd rs1 =>
    simp only [exec, execFinv, State.readF]
    repeat' split
    all_goals rfl
  | rdbits rd k =>
    by_cases hr : k ≤ s.realLeft
    · have hr' : k ≤ ({ s with bus := b } : State).realLeft := hr
      simp only [exec, execRdbits, if_pos hr, if_pos hr']
      repeat' split
      all_goals rfl
    · have hr' : ¬ k ≤ ({ s with bus := b } : State).realLeft := hr
      simp only [exec, execRdbits, if_neg hr, if_neg hr']
      repeat' split
      all_goals rfl
  | wrblk rs1 k =>
    by_cases hr : s.wrTotal.toNat + k > s.bitCapacity
    · have hr' : s.wrTotal.toNat + k > ({ s with bus := b } : State).bitCapacity := hr
      simp only [exec, execWrblk, if_pos hr, if_pos hr']
      repeat' split
      all_goals rfl
    · have hr' : ¬ s.wrTotal.toNat + k > ({ s with bus := b } : State).bitCapacity := hr
      simp only [exec, execWrblk, if_neg hr, if_neg hr']
      repeat' split
      all_goals rfl
  | wrfin rd rs1 k =>
    have hv : lowBits k (({ s with bus := b } : State).readF rs1) = lowBits k (s.readF rs1) := rfl
    simp only [exec, execWrfin, hv]
    generalize lowBits k (s.readF rs1) = v
    by_cases hr : s.wrTotal.toNat + (k - paddingLength k v) > s.bitCapacity
    · have hr' : s.wrTotal.toNat + (k - paddingLength k v) > ({ s with bus := b } : State).bitCapacity := hr
      simp only [if_pos hr, if_pos hr']
      repeat' split
      all_goals rfl
    · have hr' : ¬ s.wrTotal.toNat + (k - paddingLength k v) > ({ s with bus := b } : State).bitCapacity := hr
      simp only [if_neg hr, if_neg hr']
      repeat' split
      all_goals rfl
  | fadd rd rs1 rs2 => exact fieldBinary_setBus fieldAdd rd rs1 rs2 s b
  | fsub rd rs1 rs2 => exact fieldBinary_setBus fieldSub rd rs1 rs2 s b
  | fmul rd rs1 rs2 => exact fieldBinary_setBus fieldMul rd rs1 rs2 s b
  | fsample rd rs1 =>
    have hv : ({ s with bus := b } : State).readF rs1 = s.readF rs1 := rfl
    simp only [exec, execFsample, hv]
    generalize s.readF rs1 &&& 0x7FFFFFFF#32 = v
    by_cases hr : v.toNat ≥ Config.p
    · simp only [if_pos hr]; rfl
    · simp only [if_neg hr]; rfl
  | peval rd rs1 =>
    have hv : ({ s with bus := b } : State).readF rs1 = s.readF rs1 := rfl
    have hc : ({ s with bus := b } : State).polynomial = s.polynomial := rfl
    simp only [exec, execPeval, hv, hc]
    generalize s.polynomial = cs
    by_cases hr : (cs.any fun c => (fieldElement c).isNone) = true
    · simp only [if_pos hr]
      repeat' split
      all_goals rfl
    · simp only [if_neg hr]
      repeat' split
      all_goals rfl
  | cput rs1 rs2 =>
    simp only [exec, execCput, State.readF]
    repeat' split
    all_goals rfl
  | cget rd rs2 =>
    simp only [exec, execCget, State.readF, State.readCoef]
    split <;> rfl

/-- What a command does depends on nothing of the bus, and leaves it alone. -/
theorem exec_bus (i : Instr) {s t : State} (b : Bus) (h : exec i s = .next t) :
    exec i { s with bus := b } = .next { t with bus := b } := by
  rw [exec_setBus, h]
  rfl

/-- Both outcomes of a command of format R3 (44_field_arith.md R200 to R202). -/
theorem fieldBinary_next (op : Nat → Nat → Nat) (rd rs1 rs2 : Reg) (s : State) :
    (Config.p ≤ s.fval rs1 ∨ Config.p ≤ s.fval rs2 → fieldBinary op rd rs1 rs2 s = .next (s.failedWith 3)) ∧
    (s.fval rs1 < Config.p → s.fval rs2 < Config.p →
      fieldBinary op rd rs1 rs2 s = .next (s.withF rd (op (s.fval rs1) (s.fval rs2))).succeeded) := by
  refine ⟨fun h => ?_, fun h1 h2 => ?_⟩
  · by_cases h1 : Config.p ≤ s.fval rs1
    · rw [fieldBinary, fieldElement_of_ge (show Config.p ≤ (s.readF rs1).toNat from h1)]
      rfl
    · have h2 : Config.p ≤ s.fval rs2 := by tauto
      rw [fieldBinary, fieldElement_of_lt (show (s.readF rs1).toNat < Config.p from not_le.mp h1),
        fieldElement_of_ge (show Config.p ≤ (s.readF rs2).toNat from h2)]
      rfl
  · rw [fieldBinary, fieldElement_of_lt (show (s.readF rs1).toNat < Config.p from h1),
      fieldElement_of_lt (show (s.readF rs2).toNat < Config.p from h2)]
    rfl

/-- What a success does to EOS, WFIN, NONE and REJ: it clears none of them, and sets one only as its rule says (10_state.md
R40, R41, R43, R44). -/
theorem Effects.flags {i : Instr} {s u : State} (h : Effects i s u) :
    (s.status.eos = true → u.status.eos = true) ∧ (s.status.wfin = true → u.status.wfin = true) ∧
    (s.status.none = true → u.status.none = true) ∧ (s.status.rej = true → u.status.rej = true) ∧
    (s.status.eos = false → u.status.eos = true →
      ∃ rd k, i = .rdbits rd k ∧ 8 * s.rdLen.toNat < s.rdPos.toNat + k) ∧
    (s.status.wfin = false → u.status.wfin = true → ∃ rd rs k, i = .wrfin rd rs k) ∧
    (s.status.none = false → u.status.none = true → s.status.eos = true ∧ ∃ rd k, i = .rdbits rd k) ∧
    (s.status.rej = false → u.status.rej = true →
      ∃ rd rs, i = .fsample rd rs ∧ Config.p ≤ s.fval rs % 2 ^ 31) := by
  cases i <;> simp only [Effects] at h
  case nop => subst h; simp_all
  case czero => subst h; simp_all
  case finv => obtain ⟨a, x, -, -, rfl⟩ := h; simp_all
  case rdbits rd k =>
    obtain ⟨-, -, ⟨he, rfl⟩ | ⟨he, -, rfl⟩ | ⟨he, hr, rfl⟩⟩ := h
    · simp_all
    · simp_all
    · have : 8 * s.rdLen.toNat < s.rdPos.toNat + k := by
        simp only [State.realLeft] at hr
        omega
      simp_all
  case wrblk => obtain ⟨-, -, -, -, rfl⟩ := h; simp_all
  case wrfin => obtain ⟨-, -, -, -, -, rfl⟩ := h; simp_all
  case fadd => obtain ⟨a, b, -, -, rfl⟩ := h; simp_all
  case fsub => obtain ⟨a, b, -, -, rfl⟩ := h; simp_all
  case fmul => obtain ⟨a, b, -, -, rfl⟩ := h; simp_all
  case fsample rd rs =>
    obtain ⟨hp, rfl⟩ | ⟨-, rfl⟩ := h
    · have hp : Config.p ≤ s.fval rs % 2 ^ 31 := mask31_toNat (s.readF rs) ▸ hp
      refine ⟨id, id, id, by simp, ?_, ?_, ?_, fun _ _ => ⟨rd, rs, rfl, hp⟩⟩ <;> simp_all
    · simp_all
  case peval => obtain ⟨x, -, -, -, -, rfl⟩ := h; simp_all
  case cput => obtain ⟨j, a, -, -, rfl⟩ := h; simp_all
  case cget => obtain ⟨j, -, rfl⟩ := h; simp_all

end Sys2Proof.Machine
end

