-- ==== Sys2Proof/Laws/Bus.lean ====
section
/-! SUPPORT. The address map both ways (20_memory.md R86), and what one step does, move by move. -/

namespace Sys2Proof.Machine

/-! ## The address map -/

theorem WordAddr.offset_lt (a : WordAddr) : a.offset < 0x4000 := by
  have := a.isLt
  simp only [WordAddr.offset]
  omega

theorem WordAddr.offset_ofOffset {off : Nat} (h4 : off % 4 = 0) (h : off < 0x4000) :
    (WordAddr.ofOffset off).offset = off := by
  simp only [WordAddr.offset, WordAddr.ofOffset, BitVec.toNat_ofNat]
  omega

theorem WordAddr.offset_injective {a b : WordAddr} (h : a.offset = b.offset) : a = b := by
  apply BitVec.eq_of_toNat_eq
  simp only [WordAddr.offset] at h
  omega

theorem locate_f {a : WordAddr} (i : Fin 16) (h : a.offset = 0x0040 + 4 * i.val) : locate a = .f i := by
  have := i.isLt
  simp only [locate, h]
  repeat rw [if_neg (by omega)]
  rw [dif_pos (by omega)]
  congr 1
  ext
  simp

theorem locate_coef {a : WordAddr} (j : Fin 256) (h : a.offset = 0x0400 + 4 * j.val) : locate a = .coef j := by
  have := j.isLt
  simp only [locate, h]
  repeat rw [if_neg (by omega)]
  rw [dif_neg (by omega), dif_pos (by omega)]
  congr 1
  ext
  simp

theorem locate_rdbuf {a : WordAddr} {i : Nat} (hi : i < 1024) (h : a.offset = 0x1000 + 4 * i) :
    locate a = .rdbuf ⟨i, hi⟩ := by
  simp only [locate, h]
  repeat rw [if_neg (by omega)]
  rw [dif_neg (by omega), dif_neg (by omega), dif_pos (by omega)]
  congr 1
  ext
  simp

theorem locate_wrbuf {a : WordAddr} {i : Nat} (hi : i < 1024) (h : a.offset = 0x2000 + 4 * i) :
    locate a = .wrbuf ⟨i, hi⟩ := by
  simp only [locate, h]
  repeat rw [if_neg (by omega)]
  rw [dif_neg (by omega), dif_neg (by omega), dif_neg (by omega), dif_pos (by omega)]
  congr 1
  ext
  simp

theorem locate_reserved {a : WordAddr} (h : (0x0020 ≤ a.offset ∧ a.offset ≤ 0x003C) ∨
    (0x0080 ≤ a.offset ∧ a.offset ≤ 0x03FC) ∨ (0x0800 ≤ a.offset ∧ a.offset ≤ 0x0FFC) ∨ 0x3000 ≤ a.offset) :
    locate a = .reserved := by
  simp only [locate]
  repeat rw [if_neg (by omega)]
  repeat rw [dif_neg (by omega)]

theorem locate_cmd {a : WordAddr} (h : a.offset = 0x0000) : locate a = .cmd := by simp [locate, h]
theorem locate_status {a : WordAddr} (h : a.offset = 0x0004) : locate a = .status := by simp [locate, h]
theorem locate_ctrl {a : WordAddr} (h : a.offset = 0x0008) : locate a = .ctrl := by simp [locate, h]
theorem locate_rdLen {a : WordAddr} (h : a.offset = 0x000C) : locate a = .rdLen := by simp [locate, h]
theorem locate_rdPos {a : WordAddr} (h : a.offset = 0x0010) : locate a = .rdPos := by simp [locate, h]
theorem locate_wrCap {a : WordAddr} (h : a.offset = 0x0014) : locate a = .wrCap := by simp [locate, h]
theorem locate_wrTotal {a : WordAddr} (h : a.offset = 0x0018) : locate a = .wrTotal := by simp [locate, h]
theorem locate_pcount {a : WordAddr} (h : a.offset = 0x001C) : locate a = .pcount := by simp [locate, h]

/-- Every offset has one row of the map: the location says which. -/
theorem offset_of_locate (a : WordAddr) :
    match locate a with
    | .cmd => a.offset = 0x0000
    | .status => a.offset = 0x0004
    | .ctrl => a.offset = 0x0008
    | .rdLen => a.offset = 0x000C
    | .rdPos => a.offset = 0x0010
    | .wrCap => a.offset = 0x0014
    | .wrTotal => a.offset = 0x0018
    | .pcount => a.offset = 0x001C
    | .f i => a.offset = 0x0040 + 4 * i.val
    | .coef j => a.offset = 0x0400 + 4 * j.val
    | .rdbuf i => a.offset = 0x1000 + 4 * i.val
    | .wrbuf i => a.offset = 0x2000 + 4 * i.val
    | .reserved => 0x0020 ≤ a.offset := by
  have h4 : a.offset % 4 = 0 := by simp only [WordAddr.offset]; omega
  by_cases h_cmd : a.offset = 0x0000
  · rw [locate_cmd h_cmd]; exact h_cmd
  by_cases h_status : a.offset = 0x0004
  · rw [locate_status h_status]; exact h_status
  by_cases h_ctrl : a.offset = 0x0008
  · rw [locate_ctrl h_ctrl]; exact h_ctrl
  by_cases h_rdLen : a.offset = 0x000C
  · rw [locate_rdLen h_rdLen]; exact h_rdLen
  by_cases h_rdPos : a.offset = 0x0010
  · rw [locate_rdPos h_rdPos]; exact h_rdPos
  by_cases h_wrCap : a.offset = 0x0014
  · rw [locate_wrCap h_wrCap]; exact h_wrCap
  by_cases h_wrTotal : a.offset = 0x0018
  · rw [locate_wrTotal h_wrTotal]; exact h_wrTotal
  by_cases h_pcount : a.offset = 0x001C
  · rw [locate_pcount h_pcount]; exact h_pcount
  by_cases hf : 0x0040 ≤ a.offset ∧ a.offset ≤ 0x007C
  · have h : a.offset = 0x0040 + 4 * ((a.offset - 0x0040) / 4) := by omega
    rw [locate_f ⟨(a.offset - 0x0040) / 4, by omega⟩ h]; exact h
  by_cases hc : 0x0400 ≤ a.offset ∧ a.offset ≤ 0x07FC
  · have h : a.offset = 0x0400 + 4 * ((a.offset - 0x0400) / 4) := by omega
    rw [locate_coef ⟨(a.offset - 0x0400) / 4, by omega⟩ h]; exact h
  by_cases hr : 0x1000 ≤ a.offset ∧ a.offset ≤ 0x1FFC
  · have h : a.offset = 0x1000 + 4 * ((a.offset - 0x1000) / 4) := by omega
    rw [locate_rdbuf (by omega) h]; exact h
  by_cases hw : 0x2000 ≤ a.offset ∧ a.offset ≤ 0x2FFC
  · have h : a.offset = 0x2000 + 4 * ((a.offset - 0x2000) / 4) := by omega
    rw [locate_wrbuf (by omega) h]; exact h
  rw [locate_reserved (by omega)]
  show 0x0020 ≤ a.offset
  omega

theorem locate_eq_ctrl {a : WordAddr} : locate a = .ctrl ↔ a.offset = 0x0008 := by
  refine ⟨fun h => ?_, locate_ctrl⟩
  have := offset_of_locate a
  rwa [h] at this

theorem locate_eq_cmd {a : WordAddr} : locate a = .cmd ↔ a.offset = 0x0000 := by
  refine ⟨fun h => ?_, locate_cmd⟩
  have := offset_of_locate a
  rwa [h] at this

/-! ## One step -/

variable {s : State}

theorem step_idle (hp : s.bus.pending = []) (hb : s.status.busy = false) : step s = .next s := by
  simp [step, nextEvent, hp, coreTurn, hb]

theorem step_turn (hp : s.bus.pending = []) (hb : s.status.busy = true) : step s = completion s := by
  simp [step, nextEvent, hp, coreTurn, hb]

theorem step_move {m : Move} {ms : List Move} (hp : s.bus.pending = m :: ms) :
    step s = perform m (s.withPending ms) := by
  simp [step, nextEvent, hp]

/-- The completion of any word fails or applies the effects of the command it decodes to. -/
theorem completion_cases (s : State) :
    (∃ e, completion s = .next (s.failedWith (CmdError.code e))) ∨
    ∃ i u, decode s.cmd = .ok i ∧ completion s = .next u.succeeded ∧ Effects i s u := by
  simp only [completion]
  split
  · rename_i i hi
    rcases exec_cases i s with ⟨e, h⟩ | ⟨u, h, hu⟩
    · exact .inl ⟨e, h⟩
    · exact .inr ⟨i, u, hi, h, hu⟩
  · exact .inl ⟨_, raise_eq _ _⟩

/-- A turn of the core, in both its forms: no move is pending, or the first one is `core` and is used up. -/
theorem step_coreTurn {ms : List Move}
    (hp : s.bus.pending = [] ∧ ms = [] ∨ s.bus.pending = .core :: ms) : step s = coreTurn (s.withPending ms) := by
  rcases hp with ⟨hp, rfl⟩ | hp
  · have : s.withPending [] = s := by
      rw [← hp]
      rfl
    rw [this]
    simp [step, nextEvent, hp]
  · rw [step_move hp]
    rfl

/-- The completion of a word that does not decode (60_exceptions.md R242). -/
theorem completion_illegal (h : ∀ i, decode s.cmd ≠ .ok i) : completion s = .next (s.failedWith 1) := by
  simp only [completion]
  split
  · rename_i i hi
    exact absurd hi (h i)
  · rfl

/-- Everything one step can do. -/
theorem step_cases (s : State) :
    (∃ ms, (s.bus.pending = [] ∧ ms = [] ∨ s.bus.pending = .core :: ms) ∧
      ((s.status.busy = false ∧ step s = .next (s.withPending ms)) ∨
       (s.status.busy = true ∧ ∃ e, step s = .next ((s.withPending ms).failedWith (CmdError.code e))) ∨
       (s.status.busy = true ∧ ∃ i u, decode s.cmd = .ok i ∧ step s = .next u.succeeded ∧
        Effects i (s.withPending ms) u))) ∨
    (∃ a ms, s.bus.pending = .read a :: ms ∧ step s = .next ((s.withPending ms).hostRead a)) ∨
    (∃ a v ms, s.bus.pending = .write a v :: ms ∧ step s = .next ((s.withPending ms).hostWrite a v)) ∨
    (∃ ms, s.bus.pending = .powerOn :: ms ∧ step s = .next (s.withPending ms).clear) := by
  have turn : ∀ t : State, t.status = s.status → t.cmd = s.cmd →
      (s.status.busy = false ∧ coreTurn t = .next t) ∨
      (s.status.busy = true ∧ ∃ e, coreTurn t = .next (t.failedWith (CmdError.code e))) ∨
      (s.status.busy = true ∧ ∃ i u, decode s.cmd = .ok i ∧ coreTurn t = .next u.succeeded ∧ Effects i t u) := by
    intro t hs hc
    simp only [coreTurn, hs]
    cases hb : s.status.busy
    · exact .inl ⟨rfl, by simp⟩
    · rcases completion_cases t with ⟨e, h⟩ | ⟨i, u, hi, h, hu⟩
      · exact .inr (.inl ⟨rfl, e, by simpa using h⟩)
      · exact .inr (.inr ⟨rfl, i, u, hc ▸ hi, by simpa using h, hu⟩)
  cases hp : s.bus.pending with
  | nil =>
    have hw : s.withPending [] = s := by
      cases s
      simp_all [State.withPending]
      rw [← hp]
    refine .inl ⟨[], .inl ⟨rfl, rfl⟩, ?_⟩
    have hstep : step s = coreTurn s := by simp [step, nextEvent, hp]
    rw [hw, hstep]
    exact turn s rfl rfl
  | cons m ms =>
    rw [step_move hp]
    cases m with
    | core => exact .inl ⟨ms, .inr rfl, turn (s.withPending ms) rfl rfl⟩
    | read a => exact .inr (.inl ⟨a, ms, rfl, rfl⟩)
    | write a v => exact .inr (.inr (.inl ⟨a, v, ms, rfl, rfl⟩))
    | powerOn => exact .inr (.inr (.inr ⟨ms, rfl, rfl⟩))

/-! ## What a host transaction leaves of STATUS and of the moves to come -/

/-- A read uses up no move and changes no field of STATUS. -/
theorem hostRead_frame (s : State) (a : WordAddr) :
    (s.hostRead a).status = s.status ∧ (s.hostRead a).bus.pending = s.bus.pending := by
  simp only [State.hostRead]
  split <;> exact ⟨rfl, rfl⟩

/-- A write changes nothing of the bus. -/
theorem hostWrite_bus (s : State) (a : WordAddr) (v : Word) : (s.hostWrite a v).bus = s.bus := by
  simp only [State.hostWrite]
  split
  · rfl
  · cases locate a <;> simp only [State.accept] <;> (try rfl)
    split <;> rfl

/-- What a write does to EOS, WFIN, NONE and REJ: nothing, or it clears them, and then the offset says why. -/
theorem hostWrite_flags (s : State) (a : WordAddr) (v : Word) :
    ((s.hostWrite a v).status.eos = s.status.eos ∨
      (a.offset = 0x0008 ∧ v.getLsbD 0 = true ∨ a.offset = 0x000C ∧ s.status.busy = false) ∧
        (s.hostWrite a v).status.eos = false) ∧
    ((s.hostWrite a v).status.wfin = s.status.wfin ∨
      (a.offset = 0x0008 ∧ v.getLsbD 0 = true ∨ a.offset = 0x0014 ∧ s.status.busy = false) ∧
        (s.hostWrite a v).status.wfin = false) ∧
    ((s.hostWrite a v).status.none = s.status.none ∧ (s.hostWrite a v).status.rej = s.status.rej ∨
      (a.offset = 0x0008 ∧ v.getLsbD 0 = true ∨ a.offset = 0x0000 ∧ s.status.busy = false) ∧
        (s.hostWrite a v).status.none = false ∧ (s.hostWrite a v).status.rej = false) := by
  have ho := offset_of_locate a
  simp only [State.hostWrite]
  split
  · simp
  · rename_i hb
    cases hl : locate a <;> simp only [hl] at ho hb <;> simp only [State.accept]
    case ctrl =>
      split
      · rename_i h
        simp [ho, h, State.reset, Status.reset]
      · simp
    all_goals simp [ho]
    all_goals simp_all

end Sys2Proof.Machine
end

