-- ==== Sys2Proof/Laws/Decode.lean ====
section
/-! SUPPORT. The fields of an assembled word, and words that agree in all fields are equal (30_encoding.md R111). -/

namespace Sys2Proof

variable (opc : BitVec 8) (rd rs1 rs2 : Reg) (k : Nat)

@[simp] theorem opcField_assemble : opcField (assemble opc rd rs1 rs2 k) = opc := by
  ext i hi
  simp only [opcField, assemble, BitVec.getElem_extractLsb', BitVec.getLsbD_append]
  repeat rw [if_neg (by omega)]
  rw [BitVec.getLsbD_eq_getElem (by omega)]
  congr 1
  omega

theorem extract_append_high {n m : Nat} (x : BitVec n) (y : BitVec m) {a l : Nat} (h : m ≤ a) :
    (x ++ y).extractLsb' a l = x.extractLsb' (a - m) l := by
  ext i hi
  simp only [BitVec.getElem_extractLsb', BitVec.getLsbD_append]
  rw [if_neg (by omega), show a + i - m = a - m + i by omega]

theorem extract_append_low {n m : Nat} (x : BitVec n) (y : BitVec m) : (x ++ y).extractLsb' 0 m = y := by
  ext i hi
  simp [BitVec.getLsbD_append, hi]

theorem extract_zero_self {n : Nat} (x : BitVec n) : x.extractLsb' 0 n = x := by
  ext i hi
  simp

@[simp] theorem rdField_assemble : rdField (assemble opc rd rs1 rs2 k) = rd := by
  simp only [rdField, assemble]
  rw [extract_append_high _ _ (by omega), extract_append_high _ _ (by omega), extract_append_high _ _ (by omega),
    extract_append_high _ _ (by omega), extract_append_low]

@[simp] theorem rs1Field_assemble : rs1Field (assemble opc rd rs1 rs2 k) = rs1 := by
  simp only [rs1Field, assemble]
  rw [extract_append_high _ _ (by omega), extract_append_high _ _ (by omega), extract_append_high _ _ (by omega),
    extract_append_low]

@[simp] theorem rs2Field_assemble : rs2Field (assemble opc rd rs1 rs2 k) = rs2 := by
  simp only [rs2Field, assemble]
  rw [extract_append_high _ _ (by omega), extract_append_high _ _ (by omega), extract_append_low]

@[simp] theorem rsvField_assemble : rsvField (assemble opc rd rs1 rs2 k) = 0 := by
  simp only [rsvField, assemble]
  rw [extract_append_high _ _ (by omega), extract_append_low]
  rfl

theorem kField_assemble : kField (assemble opc rd rs1 rs2 k) = k % 64 := by
  simp only [kField, assemble]
  rw [extract_append_low]
  rfl

theorem kField_assemble_of_lt (h : k < 64) : kField (assemble opc rd rs1 rs2 k) = k := by
  rw [kField_assemble, Nat.mod_eq_of_lt h]

theorem kField_lt (w : Word) : kField w < 64 := BitVec.isLt (w.extractLsb' 0 6)

/-- A word is the six fields of R111, one after the other. -/
theorem word_eq_fields (w : Word) :
    w = opcField w ++ BitVec.ofFin (w := 4) (rdField w) ++ BitVec.ofFin (w := 4) (rs1Field w)
      ++ BitVec.ofFin (w := 4) (rs2Field w) ++ rsvField w ++ BitVec.ofNat 6 (kField w) := by
  refine BitVec.eq_of_getLsbD_eq fun i hi => ?_
  simp only [opcField, rdField, rs1Field, rs2Field, rsvField, kField, BitVec.ofNat_toNat, BitVec.setWidth_eq,
    BitVec.ofFin_toFin, BitVec.getLsbD_append, BitVec.getLsbD_extractLsb']
  repeat' split
  · simp [*]
  · simp [show 6 + (i - 6) = i by omega, *]
  · simp [show 12 + (i - 6 - 6) = i by omega, *]
  · simp [show 16 + (i - 6 - 6 - 4) = i by omega, *]
  · simp [show 20 + (i - 6 - 6 - 4 - 4) = i by omega, *]
  · simp only [show 24 + (i - 6 - 6 - 4 - 4 - 4) = i by omega, show i - 6 - 6 - 4 - 4 - 4 < 8 by omega,
      decide_true, Bool.true_and]

/-- A word with RSV = 0 is the assembly of its fields. -/
theorem assemble_fields {w : Word} (h : rsvField w = 0) :
    assemble (opcField w) (rdField w) (rs1Field w) (rs2Field w) (kField w) = w := by
  conv_rhs => rw [word_eq_fields w, h]
  rfl

/-- Two words are equal exactly when their six fields are. -/
theorem word_eq_iff (x y : Word) :
    x = y ↔ x.extractLsb' 24 8 = y.extractLsb' 24 8 ∧ x.extractLsb' 20 4 = y.extractLsb' 20 4 ∧
      x.extractLsb' 16 4 = y.extractLsb' 16 4 ∧ x.extractLsb' 12 4 = y.extractLsb' 12 4 ∧
      x.extractLsb' 6 6 = y.extractLsb' 6 6 ∧ x.extractLsb' 0 6 = y.extractLsb' 0 6 := by
  refine ⟨fun h => by simp [h], fun ⟨h1, h2, h3, h4, h5, h6⟩ => ?_⟩
  rw [word_eq_fields x, word_eq_fields y]
  simp only [opcField, rdField, rs1Field, rs2Field, rsvField, kField, h1, h2, h3, h4, h5, h6]

theorem extract_and (x y : Word) (a l : Nat) :
    (x &&& y).extractLsb' a l = x.extractLsb' a l &&& y.extractLsb' a l := by
  refine BitVec.eq_of_getLsbD_eq fun i hi => ?_
  simp [hi]

theorem and_ones4 (x : BitVec 4) : x &&& 15#4 = x := BitVec.and_allOnes

theorem and_ones6 (x : BitVec 6) : x &&& 63#6 = x := BitVec.and_allOnes

theorem and_ones8 (x : BitVec 8) : x &&& 255#8 = x := BitVec.and_allOnes

theorem rdField_eq_zero {w : Word} : rdField w = 0 ↔ w.extractLsb' 20 4 = 0#4 := by
  rw [← BitVec.toFin_inj]; rfl

theorem rs1Field_eq_zero {w : Word} : rs1Field w = 0 ↔ w.extractLsb' 16 4 = 0#4 := by
  rw [← BitVec.toFin_inj]; rfl

theorem rs2Field_eq_zero {w : Word} : rs2Field w = 0 ↔ w.extractLsb' 12 4 = 0#4 := by
  rw [← BitVec.toFin_inj]; rfl

theorem kField_eq_zero {w : Word} : kField w = 0 ↔ w.extractLsb' 0 6 = 0#6 := by
  rw [← BitVec.toNat_inj]; rfl

/-- Each opcode number of the map finds its own row. -/
theorem rowOf_mem {r : Row} (hr : r ∈ opcodeMap) : rowOf r.opc = some r := by
  simp only [opcodeMap, List.mem_cons, List.not_mem_nil, or_false] at hr
  rcases hr with rfl | rfl | rfl | rfl | rfl | rfl | rfl | rfl | rfl | rfl | rfl | rfl | rfl <;> rfl

/-- What decoding to a command means: a row of the map accepts the word, and the command is that row's. -/
theorem decode_eq_ok_iff {w : Word} {i : Instr} : decode w = .ok i ↔
    ∃ r ∈ opcodeMap, r.opc = opcField w ∧ w &&& r.mask = r.pattern ∧
      i = r.build (rdField w) (rs1Field w) (rs2Field w) (kField w) := by
  simp only [decode]
  constructor
  · intro h
    split at h
    · cases h
    · rename_i r hr
      split at h
      · rename_i ha
        cases h
        have := List.find?_some hr
        exact ⟨r, List.mem_of_find?_eq_some hr, by simpa using this, by simpa [Row.accepts] using ha, rfl⟩
      · cases h
  · rintro ⟨r, hr, ho, hm, rfl⟩
    rw [← ho, rowOf_mem hr]
    simp [Row.accepts, hm]

end Sys2Proof
end

