-- ==== Sys2Proof/Laws/Inverse.lean ====
section
/-! SUPPORT. The modular inverse unit's function: the loop of 41_modular_inverse.md R170 ends with the gcd and a Bézout
coefficient of at most half the modulus, so that the inverse of every a in [1, p) is the one x in [1, p) with
a * x mod p = 1 (R171), and 0 has none. -/

namespace Sys2Proof.Machine

theorem p_prime : Nat.Prime Config.p := by
  have h : (mersenne 31).Prime := lucas_lehmer_sufficiency 31 (by norm_num) (by norm_num)
  simpa [Config.p, mersenne] using h

/-- One pass of the loop keeps: both coefficients represent their remainders mod P, their signs differ, and
|t1| * r0 + |t0| * r1 = P. At the end r0 is the gcd. -/
theorem euclid_spec {P a : Nat} (fuel r0 r1 : Nat) (t0 t1 : Int) (hf : r1 < fuel) (hr : r1 < r0)
    (h0 : (P : Int) ∣ t0 * a - r0) (h1 : (P : Int) ∣ t1 * a - r1)
    (hs : (t0 ≤ 0 ∧ 0 ≤ t1) ∨ (0 ≤ t0 ∧ t1 ≤ 0)) (hb : |t1| * r0 + |t0| * r1 = P) (ht : 2 * |t0| ≤ P) :
    (euclid fuel r0 r1 t0 t1).1 = Nat.gcd r0 r1 ∧
    (P : Int) ∣ (euclid fuel r0 r1 t0 t1).2 * a - (euclid fuel r0 r1 t0 t1).1 ∧
    2 * |(euclid fuel r0 r1 t0 t1).2| ≤ P := by
  induction fuel generalizing r0 r1 t0 t1 with
  | zero => omega
  | succ fuel ih =>
    simp only [euclid]
    split
    · rename_i hz
      subst hz
      exact ⟨by simp, h0, ht⟩
    · rename_i hz
      have hmod : r0 - r0 / r1 * r1 = r0 % r1 := by
        have := Nat.div_add_mod r0 r1
        rw [Nat.mul_comm] at this
        omega
      have hlt : r0 % r1 < r1 := Nat.mod_lt _ (by omega)
      have hdiv : (r0 : Int) = (r0 / r1 : Nat) * (r1 : Int) + (r0 % r1 : Nat) := by
        have := Nat.div_add_mod r0 r1
        rw [Nat.mul_comm] at this
        exact_mod_cast this.symm
      rw [hmod]
      set q : Nat := r0 / r1 with hq
      have habs : |t0 - (q : Int) * t1| = |t0| + q * |t1| := by
        have hq0 : (0 : Int) ≤ q := Int.natCast_nonneg q
        rcases hs with ⟨ha, hb⟩ | ⟨ha, hb⟩
        · rw [abs_of_nonpos ha, abs_of_nonneg hb, abs_of_nonpos (by nlinarith)]
          ring
        · rw [abs_of_nonneg ha, abs_of_nonpos hb, abs_of_nonneg (by nlinarith)]
          ring
      have hg : Nat.gcd r0 r1 = Nat.gcd r1 (r0 % r1) := by
        rw [Nat.gcd_comm, Nat.gcd_rec, Nat.gcd_comm]
      have := ih r1 (r0 % r1) t1 (t0 - (q : Int) * t1) (by omega) hlt h1 ?_ ?_ ?_ ?_
      · rw [hg]
        exact this
      · have : (t0 - (q : Int) * t1) * a - ((r0 % r1 : Nat) : Int) = (t0 * a - r0) - q * (t1 * a - r1) := by
          rw [hdiv]
          ring
        rw [this]
        exact Int.dvd_sub h0 (Dvd.dvd.mul_left h1 _)
      · have hq0 : (0 : Int) ≤ q := Int.natCast_nonneg q
        rcases hs with ⟨ha, hb⟩ | ⟨ha, hb⟩
        · exact .inr ⟨hb, by nlinarith⟩
        · exact .inl ⟨hb, by nlinarith⟩
      · rw [habs, ← hb]
        conv_rhs => rw [hdiv]
        ring
      · have h2 : (2 : Int) ≤ r0 := by omega
        have hn := abs_nonneg t1
        have hm : (0 : Int) ≤ |t0| * r1 := by positivity
        nlinarith

/-- For a in [1, p) the unit answers the x in [1, p) with a * x mod p = 1 (R170, R171). -/
theorem inverse_spec {a : Nat} (h0 : 0 < a) (hp : a < Config.p) :
    ∃ x, inverse a = some x ∧ 0 < x ∧ x < Config.p ∧ a * x % Config.p = 1 := by
  have hP : (Config.p : Int) = 2147483647 := by decide
  obtain ⟨hg, hd, ht⟩ := euclid_spec (P := Config.p) (a := a) (a + 1) Config.p a 0 1 (by omega) hp
    (by simp) (by simp) (by simp) (by simp) (by simp)
  have hgcd : Nat.gcd Config.p a = 1 :=
    (Nat.Prime.coprime_iff_not_dvd p_prime).mpr fun hdvd => by
      have := Nat.le_of_dvd h0 hdvd
      omega
  rw [hgcd] at hg
  set t := (euclid (a + 1) Config.p a 0 1).2 with htdef
  rw [hg] at hd
  have hne : t ≠ 0 := by
    intro hz
    rw [hz] at hd
    obtain ⟨c, hc⟩ := hd
    rw [hP] at hc
    push_cast at hc
    omega
  have habs := abs_le.mp (show |t| ≤ (Config.p : Int) / 2 by omega)
  set x : Int := if t < 0 then t + (Config.p : Int) else t with hx
  have hxpos : 0 < x := by
    rw [hx]
    split <;> omega
  have hxlt : x < (Config.p : Int) := by
    rw [hx]
    split <;> omega
  have hxd : (Config.p : Int) ∣ x * a - 1 := by
    rw [hx]
    split
    · have : (t + (Config.p : Int)) * a - 1 = (t * a - 1) + Config.p * a := by ring
      rw [this]
      exact Int.dvd_add (by simpa using hd) (Dvd.intro _ rfl)
    · simpa using hd
  refine ⟨x.toNat, ?_, by omega, by omega, ?_⟩
  · simp only [inverse, hg]
    rw [if_neg (by omega), hx, htdef]
  · have h1 : ((a * x.toNat : Nat) : Int) % Config.p = 1 % Config.p := by
      push_cast
      rw [Int.toNat_of_nonneg (by omega)]
      have := Int.emod_emod_of_dvd (x * a) (dvd_refl (Config.p : Int))
      rw [mul_comm]
      exact Int.ModEq.symm ((Int.modEq_iff_dvd).mpr hxd)
    have h2 : (1 : Int) % Config.p = 1 := by rw [hP]; decide
    rw [h2] at h1
    exact_mod_cast h1

/-- 0 has no inverse: the loop does not run and the gcd is p (R170, 60_exceptions.md R245). -/
theorem inverse_zero : inverse 0 = none := by decide

/-- The inverse is the only one (R171). -/
theorem inverse_unique {a x y : Nat} (hx : x < Config.p) (hy : y < Config.p)
    (h1 : a * x % Config.p = 1) (h2 : a * y % Config.p = 1) : x = y := by
  have e1 : a * x ≡ 1 [MOD Config.p] := h1
  have e2 : a * y ≡ 1 [MOD Config.p] := h2
  have e3 : x * (a * y) ≡ x * 1 [MOD Config.p] := e2.mul_left x
  have e4 : y * (a * x) ≡ y * 1 [MOD Config.p] := e1.mul_left y
  have e5 : x * (a * y) = y * (a * x) := by ring
  rw [mul_one] at e3 e4
  rw [e5] at e3
  have : x ≡ y [MOD Config.p] := e3.symm.trans e4
  rwa [Nat.ModEq, Nat.mod_eq_of_lt hx, Nat.mod_eq_of_lt hy] at this

end Sys2Proof.Machine
end

