-- ==== Sys2Proof/Laws/PerInstr.lean ====
section
/-! SUPPORT. Facts about every command as syntax, one lemma per constructor. Family RowMatch: an encoded command meets
the `match` and `mask` of its own row of the opcode map, whatever its operands (30_encoding.md R116). -/

namespace Sys2Proof.Laws.RowMatch

/-- The row of the command's opcode accepts its word. -/
def Statement (i : Instr) : Prop := ∃ r ∈ opcodeMap, r.opc = opcField (encode i) ∧ r.accepts (encode i) = true

/-- A row accepts an assembled word when the two agree bit by bit under the mask. -/
theorem of_bits {r : Row} {i : Instr} (hr : r ∈ opcodeMap) (ho : r.opc = opcField (encode i))
    (h : ∀ n < 32, (encode i &&& r.mask).getLsbD n = r.pattern.getLsbD n) : Statement i :=
  ⟨r, hr, ho, beq_iff_eq.mpr (BitVec.eq_of_getLsbD_eq h)⟩

theorem nop : Statement .nop := ⟨opcodeMap[0], by simp [opcodeMap], by decide, by decide⟩

theorem finv (rd rs1 : Reg) : Statement (.finv rd rs1) := by
  refine of_bits (r := opcodeMap[1]) (by simp [opcodeMap]) (opcField_assemble ..).symm fun n hn => ?_
  simp only [encode, assemble, opcodeMap, BitVec.getLsbD_and, BitVec.getLsbD_append, List.getElem_cons_succ,
    List.getElem_cons_zero]
  interval_cases n <;> simp

theorem rdbits (rd : Reg) (k : Nat) : Statement (.rdbits rd k) := by
  refine of_bits (r := opcodeMap[2]) (by simp [opcodeMap]) (opcField_assemble ..).symm fun n hn => ?_
  simp only [encode, assemble, opcodeMap, BitVec.getLsbD_and, BitVec.getLsbD_append, List.getElem_cons_succ,
    List.getElem_cons_zero]
  interval_cases n <;> simp

theorem wrblk (rs1 : Reg) (k : Nat) : Statement (.wrblk rs1 k) := by
  refine of_bits (r := opcodeMap[3]) (by simp [opcodeMap]) (opcField_assemble ..).symm fun n hn => ?_
  simp only [encode, assemble, opcodeMap, BitVec.getLsbD_and, BitVec.getLsbD_append, List.getElem_cons_succ,
    List.getElem_cons_zero]
  interval_cases n <;> simp

theorem wrfin (rd rs1 : Reg) (k : Nat) : Statement (.wrfin rd rs1 k) := by
  refine of_bits (r := opcodeMap[4]) (by simp [opcodeMap]) (opcField_assemble ..).symm fun n hn => ?_
  simp only [encode, assemble, opcodeMap, BitVec.getLsbD_and, BitVec.getLsbD_append, List.getElem_cons_succ,
    List.getElem_cons_zero]
  interval_cases n <;> simp

theorem fadd (rd rs1 rs2 : Reg) : Statement (.fadd rd rs1 rs2) := by
  refine of_bits (r := opcodeMap[5]) (by simp [opcodeMap]) (opcField_assemble ..).symm fun n hn => ?_
  simp only [encode, assemble, opcodeMap, BitVec.getLsbD_and, BitVec.getLsbD_append, List.getElem_cons_succ,
    List.getElem_cons_zero]
  interval_cases n <;> simp

theorem fsub (rd rs1 rs2 : Reg) : Statement (.fsub rd rs1 rs2) := by
  refine of_bits (r := opcodeMap[6]) (by simp [opcodeMap]) (opcField_assemble ..).symm fun n hn => ?_
  simp only [encode, assemble, opcodeMap, BitVec.getLsbD_and, BitVec.getLsbD_append, List.getElem_cons_succ,
    List.getElem_cons_zero]
  interval_cases n <;> simp

theorem fmul (rd rs1 rs2 : Reg) : Statement (.fmul rd rs1 rs2) := by
  refine of_bits (r := opcodeMap[7]) (by simp [opcodeMap]) (opcField_assemble ..).symm fun n hn => ?_
  simp only [encode, assemble, opcodeMap, BitVec.getLsbD_and, BitVec.getLsbD_append, List.getElem_cons_succ,
    List.getElem_cons_zero]
  interval_cases n <;> simp

theorem fsample (rd rs1 : Reg) : Statement (.fsample rd rs1) := by
  refine of_bits (r := opcodeMap[8]) (by simp [opcodeMap]) (opcField_assemble ..).symm fun n hn => ?_
  simp only [encode, assemble, opcodeMap, BitVec.getLsbD_and, BitVec.getLsbD_append, List.getElem_cons_succ,
    List.getElem_cons_zero]
  interval_cases n <;> simp

theorem peval (rd rs1 : Reg) : Statement (.peval rd rs1) := by
  refine of_bits (r := opcodeMap[9]) (by simp [opcodeMap]) (opcField_assemble ..).symm fun n hn => ?_
  simp only [encode, assemble, opcodeMap, BitVec.getLsbD_and, BitVec.getLsbD_append, List.getElem_cons_succ,
    List.getElem_cons_zero]
  interval_cases n <;> simp

theorem czero : Statement .czero := ⟨opcodeMap[10], by simp [opcodeMap], by decide, by decide⟩

theorem cput (rs1 rs2 : Reg) : Statement (.cput rs1 rs2) := by
  refine of_bits (r := opcodeMap[11]) (by simp [opcodeMap]) (opcField_assemble ..).symm fun n hn => ?_
  simp only [encode, assemble, opcodeMap, BitVec.getLsbD_and, BitVec.getLsbD_append, List.getElem_cons_succ,
    List.getElem_cons_zero]
  interval_cases n <;> simp

theorem cget (rd rs2 : Reg) : Statement (.cget rd rs2) := by
  refine of_bits (r := opcodeMap[12]) (by simp [opcodeMap]) (opcField_assemble ..).symm fun n hn => ?_
  simp only [encode, assemble, opcodeMap, BitVec.getLsbD_and, BitVec.getLsbD_append, List.getElem_cons_succ,
    List.getElem_cons_zero]
  interval_cases n <;> simp

end Sys2Proof.Laws.RowMatch
end

