-- ==== Sys2Proof/Laws/Poly.lean ====
section
/-! SUPPORT. Horner's rule gives the value of the polynomial mod p (45_poly_eval.md R225), and what it depends on. -/

namespace Sys2Proof.Machine

theorem p_pos : 0 < Config.p := by decide

theorem horner_lt (x : Nat) (cs : List Nat) : horner x cs < Config.p := by
  cases cs with
  | nil => exact p_pos
  | cons c cs => exact Nat.mod_lt _ p_pos

/-- Horner and direct evaluation agree (R225). -/
theorem horner_eq_sum (x : Nat) (cs : List Nat) :
    horner x cs = (∑ i ∈ Finset.range cs.length, cs.getD i 0 * x ^ i) % Config.p := by
  induction cs with
  | nil => rfl
  | cons c cs ih =>
    have hs : (∑ i ∈ Finset.range cs.length, (c :: cs).getD (i + 1) 0 * x ^ (i + 1)) =
        (∑ i ∈ Finset.range cs.length, cs.getD i 0 * x ^ i) * x := by
      rw [Finset.sum_mul]
      refine Finset.sum_congr rfl fun i _ => ?_
      rw [List.getD_cons_succ, pow_succ, mul_assoc]
    rw [List.length_cons, Finset.sum_range_succ', hs, horner, ih, Nat.add_mod, Nat.mod_mul_mod, ← Nat.add_mod]
    simp

/-- The coefficients in use, as numbers (R220). -/
theorem polynomial_length {s : State} (h : s.pcount.toNat ≤ 256) : s.polynomial.length = s.pcount.toNat := by
  simp [State.polynomial, h]

theorem polynomial_getD {s : State} {i : Nat} (hi : i < s.pcount.toNat) :
    (s.polynomial.map fun c => c.toNat).getD i 0 = s.coefAt i := by
  simp only [State.polynomial, State.coefAt, List.getD_eq_getElem?_getD, List.getElem?_map, List.getElem?_take, hi,
    if_true]
  cases s.coef.toList[i]? <;> rfl

/-- Every coefficient in use is a field element exactly when each is. -/
theorem polynomial_all_lt {s : State} (h : s.pcount.toNat ≤ 256) :
    (∀ c ∈ s.polynomial, c.toNat < Config.p) ↔ ∀ i < s.pcount.toNat, s.coefAt i < Config.p := by
  constructor
  · intro hc i hi
    rw [← polynomial_getD hi]
    have hl : i < s.polynomial.length := by rw [polynomial_length h]; exact hi
    simpa [hl] using hc s.polynomial[i] (List.getElem_mem hl)
  · intro hc c hm
    obtain ⟨i, hi, rfl⟩ := List.getElem_of_mem hm
    rw [polynomial_length h] at hi
    have := hc i hi
    rw [← polynomial_getD hi] at this
    simpa [polynomial_length h, hi] using this

end Sys2Proof.Machine
end

