-- ==== Sys2Proof/Tests/Slice0.lean ====
section
/-! SUPPORT. Tests. Expected values are the spec's own: the words of 30_encoding.md R116 and R120, the vectors of
95_test_vectors.md (named in each comment), the address map R86. Then, for every obligation with hypotheses, a witness:
states and operands that meet them. -/

namespace Sys2Proof.Machine.Tests

/-! ## Helpers -/

/-- Reset, with these registers written by the host. -/
def regs (l : List (Reg × Word)) : State := l.foldl (fun s x => s.writeF x.1 x.2) State.reset

/-- Reset, with COEF[0..] and PCOUNT loaded by the host, and F5 = x. -/
def poly (l : List Word) (t : Nat) (x : Word) : State :=
  let s := (l.zipIdx).foldl (fun s c => s.writeCoef (Fin.ofNat 256 c.2) c.1) State.reset
  ({ s with pcount := BitVec.ofNat 9 t }).writeF 5 x

/-- Reset, with RDBUF loaded with these bytes, RD_LEN set, and F1 = 0x0000CCCC (L2.2). -/
def reader (m : Memory) (len : Nat) : State := { (regs [(1, 0xCCCC)]) with rdbuf := m, rdLen := BitVec.ofNat 13 len }

/-- Reset, with WR_CAP = cap and F1 = v (L2.3). -/
def writer (cap : Nat) (v : Word) : State := { (regs [(1, v)]) with wrCap := BitVec.ofNat 13 cap }

/-- A command line: the word is issued and completes. -/
def line (s : State) (w : Nat) : State := nextOr (step (s.withFetchWord 32 w)) s

/-- A busy core: `w` is in flight, and `ms` is to come. -/
def inFlight (s : State) (w : Word) (ms : List Move) : State := (s.issue w).withPending ms

/-- The state that n steps leave. -/
def after (n : Nat) (s : State) : State := nextOr (Sys2Proof.core.run n s) s

/-! ## Ill-formed commands are refused (R120) -/

theorem test_wf_rdbits_64 : (Instr.rdbits 1 64).wf = false := by decide
theorem test_wf_wrblk_64 : (Instr.wrblk 1 64).wf = false := by decide
theorem test_wf_wrfin_64 : (Instr.wrfin 2 1 64).wf = false := by decide
theorem test_wf_63 : (Instr.rdbits 1 63).wf = true ∧ (Instr.wrblk 1 63).wf = true ∧ (Instr.wrfin 2 1 63).wf = true := by
  decide

/-! ## Decoding: words written out bit by bit from R116 -/

theorem test_decode_nop : decode 0b00000000_0000_0000_0000_000000_000000#32 = .ok .nop := by decide
theorem test_decode_finv : decode 0b00000001_0010_0001_0000_000000_000000#32 = .ok (.finv 2 1) := by decide
theorem test_decode_rdbits : decode 0b00000010_1101_0000_0000_000000_100001#32 = .ok (.rdbits 13 33) := by decide
theorem test_decode_wrblk : decode 0b00000011_0000_0111_0000_000000_011110#32 = .ok (.wrblk 7 30) := by decide
theorem test_decode_wrfin : decode 0b00000100_1001_0111_0000_000000_011110#32 = .ok (.wrfin 9 7 30) := by decide
theorem test_decode_fadd : decode 0b00000101_0011_0001_0010_000000_000000#32 = .ok (.fadd 3 1 2) := by decide
theorem test_decode_fsub : decode 0b00000110_0011_0010_0001_000000_000000#32 = .ok (.fsub 3 2 1) := by decide
theorem test_decode_fmul : decode 0b00000111_1011_1011_1100_000000_000000#32 = .ok (.fmul 11 11 12) := by decide
theorem test_decode_fsample : decode 0b00001000_0100_0011_0000_000000_000000#32 = .ok (.fsample 4 3) := by decide
theorem test_decode_peval : decode 0b00001001_0110_0101_0000_000000_000000#32 = .ok (.peval 6 5) := by decide
theorem test_decode_czero : decode 0b00001010_0000_0000_0000_000000_000000#32 = .ok .czero := by decide
theorem test_decode_cput : decode 0b00001011_0000_0100_0010_000000_000000#32 = .ok (.cput 4 2) := by decide
theorem test_decode_cget : decode 0b00001100_0001_0000_0010_000000_000000#32 = .ok (.cget 1 2) := by decide

/-- D1 to D11 and C11: undefined opcodes, and defined ones with a 1 in a bit that must be 0. -/
theorem test_decode_illegal :
    ([0x0D000000, 0xFF000000].all fun w => decode w == .error .undefinedOpcode) = true ∧
    ([0x00000001, 0x01200040, 0x0100F000, 0x0A100000, 0x0211001E, 0x03100008, 0x0C010000, 0x0B100000, 0x04001000,
      0x0A000001].all fun w => decode w == .error .nonzeroField) = true := by decide

/-- The host's entry point. -/
theorem test_decodeTableWord :
    decodeTableWord 32 0x0497001E = some (.wrfin 9 7 30) ∧ decodeTableWord 32 0x0D000000 = none := by decide

/-- The spelling of R120. -/
theorem test_asm : (Instr.cput 4 2).asm = "CPUT f4, [f2]" ∧ (Instr.wrfin 9 7 30).asm = "WRFIN f9, f7, 30" := by decide

/-! ## One command each (95_test_vectors.md L2) -/

/-- D12: NOP after a failure. -/
theorem test_nop : (line (line State.reset 0x01210000) 0x00000000).status.word = 0x0002 := by decide
/-- I7. -/
theorem test_finv : (line (regs [(1, 0x3039)]) 0x01210000).readF 2 = 0x5479059E := by decide
/-- I1, I11. -/
theorem test_finv_errors : (line State.reset 0x01210000).status.word = 0x0046 ∧
    (line (regs [(1, 0x7FFFFFFF)]) 0x01210000).status.word = 0x0036 := by decide
/-- R3: the padding group. -/
theorem test_rdbits : let t := line (reader [(0, 0xA5), (1, 0x3C)] 2) 0x0210001E
    t.readF 1 = 0x294F2000 ∧ t.rdPos = 16 ∧ t.status.word = 0x1002 := by decide
/-- R7: 31 bits of real data; R11. -/
theorem test_rdbits_real : (line (reader [(0, 0xDE), (1, 0xAD), (2, 0xBE), (3, 0xEF)] 4) 0x0210001F).readF 1 = 0x6F56DF77 ∧
    (line (reader [] 4097) 0x02100008).status.word = 0x0026 := by decide
/-- W18: the other bits of the byte stay. -/
theorem test_wrblk : let t := line { writer 1 0 with wrbuf := [(0, 0xFF), (1, 0xFF), (2, 0xFF), (3, 0xFF)] } 0x03010004
    t.wrbuf.readWord 0 = 0x0FFFFFFF ∧ t.wrTotal = 4 := by decide
/-- W9; W14. -/
theorem test_wrblk_low_bits : (line (writer 1 0x1F) 0x03010004).wrbuf.read 0 = 0xF0 ∧
    (line (writer 0 1) 0x03010001).status.word = 0x0066 := by decide
/-- W2. -/
theorem test_wrfin : let t := line (writer 2 0x294F2000) 0x0421001E
    t.readF 2 = 16 ∧ t.wrTotal = 16 ∧ t.wrbuf.readWord 0 = 0xA53C0000 ∧ t.status.word = 0x2002 := by decide
/-- W13: pad = k; W12; W7. -/
theorem test_wrfin_padding : (line (writer 0 0x80) 0x04210008).status.word = 0x2002 ∧
    (line (writer 1 0x100) 0x04210008).status.word = 0x0056 ∧ (line (writer 1 0x3FF) 0x0421000A).status.word = 0x0066 := by
  decide
/-- A2; A6. -/
theorem test_fadd : (line (regs [(1, 0x7FFFFFFE), (2, 0x7FFFFFFE)]) 0x05312000).readF 3 = 0x7FFFFFFD ∧
    (line (regs [(1, 0x7FFFFFFF)]) 0x05312000).status.word = 0x0036 := by decide
/-- S2; S6. -/
theorem test_fsub : (line (regs [(1, 5), (2, 7)]) 0x06312000).readF 3 = 0x7FFFFFFD ∧
    (line (regs [(1, 3), (2, 0x7FFFFFFF)]) 0x06312000).status.word = 0x0036 := by decide
/-- M5; X1. -/
theorem test_fmul : (line (regs [(1, 0x075BCD15), (2, 0x3ADE68B1)]) 0x07312000).readF 3 = 0x7F61B5AE ∧
    (line (regs [(1, 10)]) 0x07111000).readF 1 = 100 := by decide
/-- Q6; Q3. -/
theorem test_fsample : (line (regs [(1, 0xFFFFFFFE), (2, 0xAAAA)]) 0x08210000).readF 2 = 0x7FFFFFFE ∧
    (line (regs [(1, 0x7FFFFFFF), (2, 0xAAAA)]) 0x08210000).readF 2 = 0xAAAA ∧
    (line (regs [(1, 0x7FFFFFFF), (2, 0xAAAA)]) 0x08210000).status.word = 0x0202 := by decide
/-- P-6; P-14. -/
theorem test_peval : (line (poly [1, 2, 3] 3 0x7FFFFFFE) 0x09650000).readF 6 = 2 ∧
    (line (poly [5, 1, 0x7FFFFFFF] 2 2) 0x09650000).readF 6 = 7 := by decide
/-- P-15, P-16, P-18. -/
theorem test_peval_errors : (line (poly [1] 0 5) 0x09650000).status.word = 0x0026 ∧
    (line (poly [1] 257 5) 0x09650000).status.word = 0x0026 ∧
    (line (poly [1, 0x7FFFFFFF] 2 2) 0x09650000).status.word = 0x0036 := by decide
/-- C10. -/
theorem test_czero : (line (poly [1, 2, 3] 2 0) 0x0A000000).readCoef 2 = 0 ∧
    (line (poly [1, 2, 3] 2 0) 0x0A000000).pcount = 2 := by decide
/-- C1; C4. -/
theorem test_cput : (line (regs [(1, 5), (2, 255)]) 0x0B012000).readCoef 255 = 5 ∧
    (line (regs [(1, 0x7FFFFFFF), (2, 256)]) 0x0B012000).status.word = 0x0026 := by decide
/-- C9; C8. -/
theorem test_cget : (line ((regs [(1, 3)]).writeCoef 3 0x1234) 0x0C101000).readF 1 = 0x1234 ∧
    (line (regs [(1, 0x55), (2, 0xFFFFFFFF)]) 0x0C102000).status.word = 0x0026 := by decide

/-! ## The host interface (L2.9), one event each -/

/-- B1: the write is dropped. -/
theorem test_write_while_busy :
    let t := after 1 (inFlight (regs [(1, 2), (2, 3)]) 0x05312000 [.write (WordAddr.ofOffset 0x0044) 9])
    t.readF 1 = 2 ∧ t.status.word = 0x0401 := by decide
/-- B2: the second command is lost. -/
theorem test_issue_while_busy : (after 1 (inFlight (regs [(1, 1)]) 0x01210000
    [.write (WordAddr.ofOffset 0x0000) 0])).cmd = 0x01210000 := by decide
/-- B3: a soft reset abandons the command. -/
theorem test_reset_while_busy : let t := after 1 (inFlight (regs [(1, 1)]) 0x01210000
    [.write (WordAddr.ofOffset 0x0008) 1])
    t.status.word = 0 ∧ t.readF 1 = 0 ∧ t.cmd = 0 := by decide
/-- B4: no state of the core changes. -/
theorem test_read_while_busy :
    (after 1 (inFlight (regs [(1, 1)]) 0x01210000 [.read (WordAddr.ofOffset 0x0044)])).readF 1 = 1 := by decide
/-- B7. -/
theorem test_rd_len : (after 1 ({ State.reset with rdPos := 5 }.withPending
    [.write (WordAddr.ofOffset 0x000C) 0xFFFFFFFF])).rdLen = 0x1FFF := by decide
/-- R86 and R82: a buffer word, byte 0 in bits 31:24. -/
theorem test_buffer_word : (after 1 (State.reset.withPending [.write (WordAddr.ofOffset 0x1000) 0xA53C0000])).rdbuf =
    [(0, 0xA5), (1, 0x3C)] := by decide
/-- R86: the map at the ends of its rows. -/
theorem test_locate :
    [0x0000, 0x001C, 0x0020, 0x003C, 0x0040, 0x007C, 0x0080, 0x03FC].map (fun o => locate (WordAddr.ofOffset o)) =
      [.cmd, .pcount, .reserved, .reserved, .f 0, .f 15, .reserved, .reserved] ∧
    [0x0400, 0x07FC, 0x0800, 0x0FFC, 0x1000, 0x1FFC, 0x2000, 0x2FFC, 0x3000, 0x3FFC].map
        (fun o => locate (WordAddr.ofOffset o)) =
      [.coef 0, .coef 255, .reserved, .reserved, .rdbuf 0, .rdbuf 1023, .wrbuf 0, .wrbuf 1023, .reserved, .reserved] := by
  decide

/-! ## Witnesses: the hypotheses of each obligation can be met, clause by clause

A state `busy` has FINV in flight, an `idle` one has the given moves to come. -/

/-- An idle core. -/
def idle (ms : List Move) : State := State.reset.withPending ms
/-- A core with FINV f2, f1 in flight. -/
def busy (ms : List Move) : State := inFlight (regs [(1, 3)]) 0x01210000 ms
/-- The word address of a byte offset. -/
def at_ (off : Nat) : WordAddr := WordAddr.ofOffset off

/-- DecodeOfEncodeIsTheCommand. -/
theorem witness_wellFormed : (Instr.wrfin 15 15 63).wf = true ∧ (Instr.rdbits 0 0).wf = true := by decide

/-- EncodeOfDecodeIsTheWord, UnusedFieldsAreZero: a word of each format (R115). -/
theorem witness_decoded :
    decode 0x0A000000 = .ok .czero ∧ decode 0x01FF0000 = .ok (.finv 15 15) ∧ decode 0x02F0003F = .ok (.rdbits 15 63) ∧
    decode 0x030F0000 = .ok (.wrblk 15 0) ∧ decode 0x04FF003F = .ok (.wrfin 15 15 63) ∧
    decode 0x05FFF000 = .ok (.fadd 15 15 15) ∧ decode 0x0B0FF000 = .ok (.cput 15 15) ∧
    decode 0x0CF0F000 = .ok (.cget 15 15) := by decide

/-- EveryWidthDecodesAndOnlyOneToThirtyTwoAreLegal: the ends of the illegal widths. -/
theorem witness_widths : (0 < 64 ∧ 0 = 0) ∧ (33 < 64 ∧ 33 ≤ 33) ∧ (63 < 64 ∧ 33 ≤ 63) := by decide

/-- ResetLeavesEverythingZero, BothResetsGiveTheResetState. -/
theorem witness_resets :
    (∃ t, step (busy [.powerOn]) = .next t) ∧ (∃ t, step (busy [.write (at_ 0x0008) 0xFFFFFFFF]) = .next t) ∧
    (0xFFFFFFFF : Word).getLsbD 0 = true ∧ (0xFFFFFFFE : Word).getLsbD 0 = false ∧
    (busy [.powerOn]).bus.pending = [.powerOn] ∧
    (busy [.write (at_ 0x0008) 2]).bus.pending = [.write (at_ 0x0008) 2] :=
  ⟨⟨_, rfl⟩, ⟨_, rfl⟩, by decide, by decide, rfl, rfl⟩

/-- A state in the middle of work: a group has been read, a block written, and FADD is in flight. -/
def midway : State :=
  { busy [.core] with
    rdbuf := [(0, 0xA5), (4095, 0x3C)], wrbuf := [(0, 0xF0)], rdLen := 4096, rdPos := 30, wrCap := 1, wrTotal := 4 }

/-- EveryStepKeepsTheInvariant. -/
theorem witness_invariant : midway.Inv ∧ ∃ t, step midway = .next t := by
  refine ⟨⟨⟨?_, ?_, ?_, ?_, ?_, ?_⟩, ?_, ?_, ?_, ?_, ?_, ?_, ?_, ?_, ?_⟩, _, rfl⟩ <;> decide

/-- ReachableStatesAreConsistent. -/
theorem witness_reachable :
    ∃ t, Sys2Proof.core.run 3 (State.reset.withPending [.write (at_ 0x000C) 1, .write (at_ 0x0000) 0x02100009]) = .next t :=
  ⟨_, rfl⟩

/-- StepRunsTheDecodedCommand. -/
theorem witness_turn :
    (busy []).status.busy = true ∧ decode (busy []).cmd = .ok (.finv 2 1) ∧ (busy []).bus.pending = [] ∧
    (busy [.core]).bus.pending = [.core] := by decide

/-- OtherWordsCompleteWithIllegalCommand: the least undefined opcode; a NOP and a CGET with a bit too many; both
forms of the core's turn; and a completion from a state as issue leaves it. -/
theorem witness_illegal :
    (inFlight State.reset 0x0D000000 [.core]).status.busy = true ∧
    0x0D ≤ (opcField (inFlight State.reset 0x0D000000 [.core]).cmd).toNat ∧
    ((inFlight State.reset 0x0D000000 [.core]).bus.pending = [.core] ∧
      (inFlight State.reset 0x0D000000 []).bus.pending = []) ∧
    opcField 0x00000001 = 0x00 ∧ (0x00000001 : Word) &&& 0xFFFFFFFF &&& 0x00FFFFFF ≠ 0 ∧
    opcField 0x0C010000 = 0x0C ∧ (0x0C010000 : Word) &&& 0xFF0F0FFF &&& 0x00FFFFFF ≠ 0 ∧
    (busy []).status.err = false ∧ (busy []).status.ecode = 0 := by decide

/-- IdleCoreKeepsItsState. -/
theorem witness_idle : (idle []).status.busy = false ∧ (idle []).bus.pending = [] ∧ (idle [.core]).bus.pending = [.core] := by
  decide

/-- WriteToCmdIssues, WriteToRdLenRestartsTheReader, WriteToWrCapRestartsTheWriter. -/
theorem witness_idle_writes :
    (idle []).status.busy = false ∧
    (idle [.write (at_ 0x0000) 0xFFFFFFFF]).bus.pending = [.write (at_ 0x0000) 0xFFFFFFFF] ∧
    (idle [.write (at_ 0x000C) 0xFFFFFFFF]).bus.pending = [.write (at_ 0x000C) 0xFFFFFFFF] ∧
    (idle [.write (at_ 0x0014) 0xFFFFFFFF]).bus.pending = [.write (at_ 0x0014) 0xFFFFFFFF] := by decide

/-- WriteWhileBusyIsDropped: CMD, the last offset, and CTRL with both values of bit 0. -/
theorem witness_busy_writes :
    (busy []).status.busy = true ∧ (busy [.write (at_ 0x3FFC) 1]).bus.pending = [.write (at_ 0x3FFC) 1] ∧
    (at_ 0x0000).offset ≠ 0x0008 ∧ (at_ 0x3FFC).offset ≠ 0x0008 ∧ (at_ 0x0008).offset = 0x0008 ∧
    (1 : Word).getLsbD 0 = true ∧ (2 : Word).getLsbD 0 = false := by decide

/-- IdleReadReturnsTheLocation, IdleWriteStoresOnlyThere, ReadOnlyAndReservedWritesAreIgnored, ReadReturnsTheLatestWrite:
each clause's offsets, the ends of its range, and an idle core in front of such a read and such a write. -/
theorem witness_offsets :
    ([0x0000, 0x0004, 0x0008, 0x000C, 0x0010, 0x0014, 0x0018, 0x001C, 0x0020, 0x003C, 0x0040, 0x007C, 0x0080, 0x03FC,
      0x0400, 0x07FC, 0x0800, 0x0FFC, 0x1000, 0x1FFC, 0x2000, 0x2FFC, 0x3000, 0x3FFC].all
        fun o => (at_ o).offset == o) = true ∧
    0x007C = 0x0040 + 4 * (15 : Fin 16).val ∧ 0x07FC = 0x0400 + 4 * (255 : Fin 256).val ∧
    0x1FFC = 0x1000 + 4 * 1023 ∧ 0x2FFC = 0x2000 + 4 * 1023 ∧
    (idle [.read (at_ 0x3FFC)]).status.busy = false ∧ (idle [.read (at_ 0x3FFC)]).bus.pending = [.read (at_ 0x3FFC)] ∧
    State.reset.rdbuf.wf ∧ State.reset.wrbuf.wf ∧
    (idle [.write (at_ 0x2FFC) 1, .read (at_ 0x2FFC)]).bus.pending = [.write (at_ 0x2FFC) 1, .read (at_ 0x2FFC)] ∧
    (at_ 0x2FFC).offset ≠ 0x0000 ∧ (at_ 0x2FFC).offset ≠ 0x0008 := by decide

/-- ReadWhileBusyChangesNothing. -/
theorem witness_busy_reads :
    (busy [.read (at_ 0x0004)]).status.busy = true ∧
    (busy [.read (at_ 0x0000)]).bus.pending = [.read (at_ 0x0000)] ∧ (at_ 0x0000).offset = 0x0000 ∧
    (at_ 0x0004).offset = 0x0004 := by decide

/-- CommandLineRunsTheCommand: no poll before the completion, and two. -/
theorem witness_command_line :
    (Instr.finv 2 1).wf = true ∧ (idle (commandLine (.finv 2 1) 2 ++ [.powerOn])).status.busy = false ∧
    (idle (commandLine (.finv 2 1) 0)).bus.pending = commandLine (.finv 2 1) 0 ++ [] ∧
    (idle (commandLine (.finv 2 1) 2 ++ [.powerOn])).bus.pending = commandLine (.finv 2 1) 2 ++ [.powerOn] := by decide

/-- BusyIntervalChangesOnlyWbusy. -/
theorem witness_interval :
    let ms : List Move := [.read (at_ 0x0044), .write (at_ 0x0000) 0, .write (at_ 0x3FFC) 1]
    (busy (ms ++ [.core])).status.busy = true ∧ (∀ m ∈ ms, m.harmless = true) ∧
    (busy (ms ++ [.core])).bus.pending = ms ++ [.core] := by decide

/-- FailureWritesNothingElse, StatusWordAfterFailure: FINV of 0. -/
theorem witness_failure :
    let s := State.reset.issue 0x01210000
    s.status.err = false ∧ s.status.none = false ∧ s.status.rej = false ∧
    exec (.finv 2 1) s = .next (s.failedWith 4) ∧ (s.failedWith 4).status.err = true :=
  ⟨rfl, rfl, rfl, rfl, rfl⟩

/-- NopClearsAStaleError, from a state with an error in it. -/
theorem witness_nop :
    let s := (line State.reset 0x01210000).withPending [.write (at_ 0x0000) 0, .core]
    s.status.busy = false ∧ s.status.err = true ∧ s.bus.pending = [.write (at_ 0x0000) 0, .core] := by decide

/-- FinvGivesTheInverse: p and 2^32 - 1; 0; 1 and p - 1. -/
theorem witness_finv :
    Config.p ≤ (regs [(1, 0x7FFFFFFF)]).fval 1 ∧ Config.p ≤ (regs [(1, 0xFFFFFFFF)]).fval 1 ∧
    (regs []).fval 1 = 0 ∧ 0 < (regs [(1, 1)]).fval 1 ∧ (regs [(1, 1)]).fval 1 < Config.p ∧
    0 < (regs [(1, 0x7FFFFFFE)]).fval 1 ∧ (regs [(1, 0x7FFFFFFE)]).fval 1 < Config.p := by decide

/-- FaddAddsModP, FsubSubtractsModP, FmulMultipliesModP: one operand bad, each of the two, and both good. -/
theorem witness_binary :
    Config.p ≤ (regs [(1, 0x7FFFFFFF)]).fval 1 ∧ Config.p ≤ (regs [(2, 0xFFFFFFFF)]).fval 2 ∧
    (regs [(1, 0), (2, 0x7FFFFFFE)]).fval 1 < Config.p ∧ (regs [(1, 0), (2, 0x7FFFFFFE)]).fval 2 < Config.p := by decide

/-- FsampleMasksAndRejects. -/
theorem witness_fsample :
    Config.p ≤ (regs [(1, 0xFFFFFFFF)]).fval 1 % 2 ^ 31 ∧ (regs [(1, 0xFFFFFFFE)]).fval 1 % 2 ^ 31 < Config.p := by decide

/-- RdbitsReadsThePaddedStream: an illegal width is `witness_widths`; RD_LEN = 4097; the end of the sequence; k = R; k =
R + 1. -/
theorem witness_rdbits :
    4096 < (reader [] 4097).rdLen.toNat ∧ (reader [] 4096).rdLen.toNat ≤ 4096 ∧
    (reader [] 0).setEos.status.eos = true ∧ (reader [] 4).status.eos = false ∧
    (reader [] 4).rdPos.toNat + 32 ≤ 8 * (reader [] 4).rdLen.toNat ∧
    (reader [] 0).rdPos.toNat + 0 = 8 * (reader [] 0).rdLen.toNat ∧
    (reader [] 3).rdPos.toNat + 24 = 8 * (reader [] 3).rdLen.toNat := by decide

/-- WrblkAppendsTheLowBits, WrfinStripsThePaddingAndFinalizes: WR_CAP = 4097; finalized; one bit too many; a block that just
fits; a zero block; and a block with its padding (for W12: pad = 9 > 8 does not count). -/
theorem witness_writer :
    4096 < (writer 4097 0).wrCap.toNat ∧ (writer 4096 0).wrCap.toNat ≤ 4096 ∧ (writer 1 0).setWfin.status.wfin = true ∧
    (writer 1 0).status.wfin = false ∧ 8 * (writer 1 0).wrCap.toNat < (writer 1 0).wrTotal.toNat + 9 ∧
    (writer 1 0).wrTotal.toNat + 8 ≤ 8 * (writer 1 0).wrCap.toNat ∧ (writer 1 0).wrbuf.wf ∧
    (writer 1 0x100).fval 1 % 2 ^ 8 = 0 ∧ (writer 1 0x180).fval 1 % 2 ^ 8 ≠ 0 ∧
    8 * (writer 1 0).wrCap.toNat < (writer 1 0).wrTotal.toNat + (10 - 1) ∧
    (writer 0 0).wrTotal.toNat + (8 - 8) ≤ 8 * (writer 0 0).wrCap.toNat := by decide

/-- PevalEvaluatesThePolynomial: PCOUNT 0, 1, 256 and 257; x = p; a coefficient of p. -/
theorem witness_peval :
    (poly [] 0 0).pcount.toNat = 0 ∧ 256 < (poly [] 257 0).pcount.toNat ∧ 1 ≤ (poly [] 1 0).pcount.toNat ∧
    (poly [] 256 0).pcount.toNat ≤ 256 ∧ Config.p ≤ (poly [] 1 0x7FFFFFFF).fval 5 ∧
    (1 < (poly [1, 0x7FFFFFFF] 2 0).pcount.toNat ∧ Config.p ≤ (poly [1, 0x7FFFFFFF] 2 0).coefAt 1) ∧
    (poly [1, 2] 2 3).fval 5 < Config.p ∧ (∀ i < (poly [1, 2] 2 3).pcount.toNat, (poly [1, 2] 2 3).coefAt i < Config.p) := by
  decide

/-- CputStoresAFieldElement, CgetLoadsTheRawWord: the indexes 255 and 256. -/
theorem witness_store :
    256 ≤ (regs [(2, 256)]).fval 2 ∧ (regs [(2, 255)]).fval 2 < 256 ∧ Config.p ≤ (regs [(1, 0x7FFFFFFF)]).fval 1 ∧
    (regs [(2, 255)]).fval 2 = (255 : Fin 256).val ∧ (regs [(2, 0)]).fval 2 = (0 : Fin 256).val ∧
    (regs [(1, 5)]).fval 1 < Config.p := by decide

/-- RegisterCommandsFrame, StoreCommandsFrame, CommandsNeverWriteTheirConfiguration: each command answers a next state, with
operands on which it succeeds. -/
theorem witness_frames :
    (∃ t, exec (.finv 2 1) (regs [(1, 2)]) = .next t ∧ t.status.err = false) ∧
    (∃ t, exec (.fadd 3 1 2) (regs [(1, 2)]) = .next t ∧ t.status.err = false) ∧
    (∃ t, exec (.fsub 3 1 2) (regs [(1, 2)]) = .next t ∧ t.status.err = false) ∧
    (∃ t, exec (.fmul 3 1 2) (regs [(1, 2)]) = .next t ∧ t.status.err = false) ∧
    (∃ t, exec (.fsample 2 1) (regs [(1, 2)]) = .next t ∧ t.status.err = false) ∧
    (∃ t, exec (.peval 6 5) (poly [1, 2] 2 3) = .next t ∧ t.status.err = false) ∧
    (∃ t, exec (.cget 1 2) (regs [(1, 2)]) = .next t ∧ t.status.err = false) ∧
    (∃ t, exec .nop State.reset = .next t ∧ t.status.err = false) ∧
    (∃ t, exec .czero State.reset = .next t ∧ t.status.err = false) ∧
    (∃ t, exec (.cput 1 2) (regs [(1, 2)]) = .next t ∧ t.status.err = false) :=
  ⟨⟨_, rfl, by decide⟩, ⟨_, rfl, by decide⟩, ⟨_, rfl, by decide⟩, ⟨_, rfl, by decide⟩, ⟨_, rfl, by decide⟩,
    ⟨_, rfl, by decide⟩, ⟨_, rfl, by decide⟩, ⟨_, rfl, by decide⟩, ⟨_, rfl, by decide⟩, ⟨_, rfl, by decide⟩⟩

/-- ReaderFrame: a group, and `None`. -/
theorem witness_reader_frame :
    (∃ t, exec (.rdbits 1 8) (reader [(0, 0xA5)] 1) = .next t ∧ t.status.none = false) ∧
    (∃ t, exec (.rdbits 1 8) (reader [] 0).setEos = .next t ∧ t.status.none = true) ∧
    (reader [] 0).setEos.status.none = false :=
  ⟨⟨_, rfl, by decide⟩, ⟨_, rfl, by decide⟩, by decide⟩

/-- WriterFrame: WRBLK with m = k, and WRFIN with m = k - pad. -/
theorem witness_writer_frame :
    (∃ t, exec (.wrblk 1 4) (writer 1 0x1F) = .next t ∧ t.status.err = false) ∧
    (∃ t, exec (.wrfin 2 1 9) (writer 1 0x1FF) = .next t ∧ t.status.err = false) ∧
    (writer 1 0x1F).wrbuf.wf ∧ 8 = 9 - paddingLength 9 (lowBits 9 ((writer 1 0x1FF).readF 1)) :=
  ⟨⟨_, rfl, by decide⟩, ⟨_, rfl, by decide⟩, by decide, by decide⟩

/-- OnlyTheReaderSetsEos: it is set by a step, and cleared by one. -/
theorem witness_eos :
    (∃ t, step (inFlight (reader [] 0) 0x02100001 [.core]) = .next t ∧ t.status.eos = true) ∧
    (∃ t, step (inFlight (reader [] 0) 0x02100001 []) = .next t ∧ t.status.eos = true) ∧
    (inFlight (reader [] 0) 0x02100001 []).status.eos = false ∧
    (∃ t, step ((reader [] 0).setEos.withPending [.write (at_ 0x000C) 0]) = .next t ∧ t.status.eos = false) ∧
    ((reader [] 0).setEos.withPending [.write (at_ 0x000C) 0]).status.eos = true :=
  ⟨⟨_, rfl, by decide⟩, ⟨_, rfl, by decide⟩, by decide, ⟨_, rfl, by decide⟩, by decide⟩

/-- OnlyWrfinSetsWfin: it is set by a step, and cleared by one. -/
theorem witness_wfin :
    (∃ t, step (inFlight (writer 0 0x80) 0x04210008 []) = .next t ∧ t.status.wfin = true) ∧
    (inFlight (writer 0 0x80) 0x04210008 []).status.wfin = false ∧
    (∃ t, step ((writer 0 0).setWfin.withPending [.write (at_ 0x0014) 0]) = .next t ∧ t.status.wfin = false) ∧
    ((writer 0 0).setWfin.withPending [.write (at_ 0x0014) 0]).status.wfin = true :=
  ⟨⟨_, rfl, by decide⟩, by decide, ⟨_, rfl, by decide⟩, by decide⟩

/-- NoneAndRejDescribeTheLatestCommand: each is set by a step, and cleared by one. -/
theorem witness_none_rej :
    (∃ t, step (inFlight (reader [] 0).setEos 0x02100001 []) = .next t ∧ t.status.none = true) ∧
    (inFlight (reader [] 0).setEos 0x02100001 []).status.none = false ∧
    (∃ t, step (inFlight (regs [(1, 0x7FFFFFFF)]) 0x08210000 []) = .next t ∧ t.status.rej = true) ∧
    (inFlight (regs [(1, 0x7FFFFFFF)]) 0x08210000 []).status.rej = false ∧
    (∃ t, step (State.reset.setNone.setRej.withPending [.write (at_ 0x0000) 0]) = .next t ∧ t.status.none = false ∧
      t.status.rej = false) :=
  ⟨⟨_, rfl, by decide⟩, by decide, ⟨_, rfl, by decide⟩, by decide, ⟨_, rfl, by decide⟩⟩

/-- FieldResultsAreCanonical is met by `witness_frames`; InverseThenProductDivides, EqualSharesAreNotInvertible. -/
theorem witness_division :
    (3 : Reg) ≠ 1 ∧ (regs [(1, 0x7FFFFFFE), (2, 1)]).fval 1 < Config.p ∧ 0 < (regs [(1, 0x7FFFFFFE), (2, 1)]).fval 2 ∧
    (regs [(1, 0x7FFFFFFE), (2, 1)]).fval 2 < Config.p ∧ (regs [(1, 5), (2, 5)]).fval 2 = (regs [(1, 5), (2, 5)]).fval 1 := by
  decide

/-- PevalIgnoresUnusedCoefficients: the coefficient at PCOUNT is another one. -/
theorem witness_unused :
    (∀ j : Fin 256, j.val < (poly [5, 1] 2 2).pcount.toNat →
      (poly [5, 1, 0x7FFFFFFF] 2 2).coef.get j = (poly [5, 1] 2 2).coef.get j) ∧
    ∃ t, exec (.peval 6 5) (poly [5, 1] 2 2) = .next t := by
  refine ⟨fun j hj => ?_, _, rfl⟩
  have : j = 0 ∨ j = 1 := by
    have hj : j.val < 2 := hj
    rcases j with ⟨_ | _ | n, h⟩
    · exact .inl rfl
    · exact .inr rfl
    · simp at hj
  rcases this with rfl | rfl <;> decide

/-- GroupsAreTheDataAndItsPadding, with widths 3, 5, 4, 4 and 1 (R5); ChunkCountOfASecret with L = 0. -/
theorem witness_groups :
    let s := reader [(0, 0xA5), (1, 0x3C)] 2
    s.rdLen.toNat ≤ 4096 ∧ s.rdPos = 0 ∧ s.status.eos = false ∧ (∀ x ∈ [3, 5, 4, 4] ++ [1], 1 ≤ x ∧ x ≤ 32) ∧
    [3, 5, 4, 4].sum ≤ 8 * s.rdLen.toNat ∧ 8 * s.rdLen.toNat < [3, 5, 4, 4].sum + 1 ∧
    30 ∣ 8 * (reader [] 0).rdLen.toNat := by decide

/-- R5 and R3, group by group: what the statement is about. -/
theorem test_groups : ((reader [(0, 0xA5), (1, 0x3C)] 2).readGroups 1 [3, 5, 4, 4, 1]).1 =
    [(3, 0x5), (5, 0x5), (4, 0x3), (4, 0xC), (1, 0x1)] := by decide

/-- ReadingThenWritingBackReproducesTheBuffer: R3 and W2 as one. -/
theorem witness_round_trip :
    let s := reader [(0, 0xA5), (1, 0x3C)] 2
    s.rdLen.toNat ≤ 4096 ∧ s.rdPos = 0 ∧ s.status.eos = false ∧ (∀ x ∈ [8] ++ [30], 1 ≤ x ∧ x ≤ 32) ∧
    [8].sum ≤ 8 * s.rdLen.toNat ∧ 8 * s.rdLen.toNat < [8].sum + 30 ∧
    (s.readGroups 1 ([8] ++ [30])).1 = [(8, 0xA5)] ++ [(30, 0x0F200000)] ∧ s.rdLen.toNat ≤ (writer 2 0).wrCap.toNat ∧
    (writer 2 0).wrCap.toNat ≤ 4096 ∧ (writer 2 0).wrTotal = 0 ∧ (writer 2 0).status.wfin = false ∧
    (writer 2 0).wrbuf.wf := by decide

end Sys2Proof.Machine.Tests
end

/-! # The invariant

What each update of the state does to `State.Inv` (10_state.md R52 and the model's own clauses), one lemma per update;
a step and a run are then put together from them. -/

namespace Sys2Proof.Machine

section Updates

variable {s : State}

/-- The state after reset: every cursor, flag and code is 0 and both buffers are blank. -/
theorem State.inv_reset : State.reset.Inv where
  consistent := by constructor <;> decide
  rdbuf_wf := by decide
  wrbuf_wf := by decide
  ecode_of_err := by decide
  busy_cleared := by decide
  one_result := by decide
  none_not_rej := by decide
  long_read := by decide
  long_write := by decide
  fresh := by decide

/-- The invariant says nothing of F, COEF, PCOUNT and the bus: whatever only these take, it stays. -/
theorem State.Inv.setUntracked (h : s.Inv) (f : Vector Word 16) (coef : Vector Word 256) (pcount : BitVec 9)
    (bus : Bus) : ({ s with f := f, coef := coef, pcount := pcount, bus := bus } : State).Inv :=
  { h with consistent := { h.consistent with } }

theorem State.Inv.withPending (h : s.Inv) (ms : List Move) : (s.withPending ms).Inv := h.setUntracked ..

theorem State.Inv.writeF (h : s.Inv) (r : Reg) (v : Word) : (s.writeF r v).Inv := h.setUntracked ..

theorem State.Inv.writeCoef (h : s.Inv) (j : Fin 256) (v : Word) : (s.writeCoef j v).Inv := h.setUntracked ..

theorem State.Inv.clearCoef (h : s.Inv) : s.clearCoef.Inv := h.setUntracked ..

theorem State.inv_clear (s : State) : s.clear.Inv := State.inv_reset.setUntracked ..

/-! ## Host transactions -/

theorem State.Inv.hostRead (h : s.Inv) (a : WordAddr) : (s.hostRead a).Inv := by
  simp only [State.hostRead]
  split
  · exact h.setUntracked ..
  · exact h.setUntracked ..

/-- Issue clears all that the invariant forbids while BUSY = 1, and leaves the cursors alone (40_command_cycle.md R140). -/
theorem State.Inv.issue (h : s.Inv) (w : Word) : (s.issue w).Inv :=
  { h with
    consistent := { h.consistent with
      ecode_of_ok := by simp
      busy_not_done := by simp }
    ecode_of_err := by simp
    busy_cleared := by simp
    one_result := by simp
    none_not_rej := by simp
    fresh := by simp }

/-- WBUSY has no clause but `fresh`, which asks for BUSY = 0. -/
theorem State.Inv.dropWrite (h : s.Inv) (hb : s.status.busy = true) : s.dropWrite.Inv :=
  { h with
    consistent := { h.consistent with }
    fresh := by simp [hb] }

/-- A write to RD_LEN puts the cursor and EOS back to 0, so any length is in order (42_bit_reader.md R180). -/
theorem State.Inv.acceptRdLen (h : s.Inv) (v : Word) : (s.accept v .rdLen).Inv :=
  { h with
    consistent := { h.consistent with
      rdPos_le := Nat.zero_le _
      eos_at_end := by simp [State.accept] }
    long_read := fun _ => ⟨rfl, rfl⟩
    fresh := fun hb hd => by
      obtain ⟨hcmd, hst, -, htotal⟩ := h.fresh hb hd
      exact ⟨hcmd, by simp [State.accept, hst, Status.reset], rfl, htotal⟩ }

/-- A write to WR_CAP puts the total and WFIN back to 0, so any capacity is in order (43_bit_writer.md R190). -/
theorem State.Inv.acceptWrCap (h : s.Inv) (v : Word) : (s.accept v .wrCap).Inv :=
  { h with
    consistent := { h.consistent with
      wrTotal_le := Nat.zero_le _
      wrTotal_fits := fun _ => Nat.zero_le _ }
    long_write := fun _ => ⟨rfl, rfl⟩
    fresh := fun hb hd => by
      obtain ⟨hcmd, hst, hpos, -⟩ := h.fresh hb hd
      exact ⟨hcmd, by simp [State.accept, hst, Status.reset], hpos, rfl⟩ }

theorem State.Inv.accept (h : s.Inv) (v : Word) (loc : Location) : (s.accept v loc).Inv := by
  cases loc with
  | cmd => exact h.issue v
  | status | rdPos | wrTotal | reserved => exact h
  | ctrl =>
    simp only [State.accept]
    split
    · exact s.inv_clear
    · exact h
  | rdLen => exact h.acceptRdLen v
  | wrCap => exact h.acceptWrCap v
  | pcount => exact h.setUntracked ..
  | f i => exact h.writeF i v
  | coef j => exact h.writeCoef j v
  | rdbuf i => exact { h with consistent := { h.consistent with }, rdbuf_wf := Memory.wf_writeWord v h.rdbuf_wf i.isLt }
  | wrbuf i => exact { h with consistent := { h.consistent with }, wrbuf_wf := Memory.wf_writeWord v h.wrbuf_wf i.isLt }

theorem State.Inv.hostWrite (h : s.Inv) (a : WordAddr) (v : Word) : (s.hostWrite a v).Inv := by
  simp only [State.hostWrite]
  split
  case isTrue hdrop => exact h.dropWrite hdrop.1
  case isFalse => exact h.accept v _

/-! ## The effects of a command in flight

While BUSY = 1 the clause `fresh` asks for nothing; the updates below keep the others, up to NONE and REJ, which are set
only together with the completion. -/

theorem State.Inv.setRdPos (h : s.Inv) (hb : s.status.busy = true) (hlen : s.rdLen.toNat ≤ 4096)
    (heos : s.status.eos = false) {n : Nat} (hn : n ≤ 8 * s.rdLen.toNat) : (s.setRdPos n).Inv :=
  { h with
    consistent := { h.consistent with
      rdPos_le := by simp only [State.setRdPos_rdPos, State.setRdPos_rdLen, BitVec.toNat_ofNat]; omega
      eos_at_end := by simp [heos] }
    long_read := by simp only [State.setRdPos_rdLen]; omega
    fresh := by simp [hb] }

theorem State.Inv.setEos (h : s.Inv) (hb : s.status.busy = true) (hlen : s.rdLen.toNat ≤ 4096)
    (hend : s.rdPos.toNat = 8 * s.rdLen.toNat) : s.setEos.Inv :=
  { h with
    consistent := { h.consistent with eos_at_end := fun _ => hend }
    long_read := by simp only [State.setEos_rdLen]; omega
    fresh := by simp [hb] }

/-- Bits are appended within the capacity, so inside the buffer (43_bit_writer.md R192). -/
theorem State.Inv.append (h : s.Inv) (hb : s.status.busy = true) (hcap : s.wrCap.toNat ≤ 4096) {k : Nat}
    (hk : s.wrTotal.toNat + k ≤ 8 * s.wrCap.toNat) (v : Nat) : (s.append k v).Inv :=
  { h with
    consistent := { h.consistent with
      wrTotal_le := by simp only [State.append_wrTotal, State.append_wrCap, BitVec.toNat_ofNat]; omega
      wrTotal_fits := by simp only [State.append_wrTotal, State.append_wrCap, BitVec.toNat_ofNat]; omega }
    wrbuf_wf := Memory.wf_writeBits v h.wrbuf_wf (by simp only [Config.bufBytes]; omega)
    long_write := by simp only [State.append_wrCap]; omega
    fresh := by simp [hb] }

theorem State.Inv.setWfin (h : s.Inv) (hb : s.status.busy = true) (hcap : s.wrCap.toNat ≤ 4096) : s.setWfin.Inv :=
  { h with
    consistent := { h.consistent with }
    long_write := by simp only [State.setWfin_wrCap]; omega
    fresh := by simp [hb] }

theorem State.Inv.finalize (h : s.Inv) (hb : s.status.busy = true) (hcap : s.wrCap.toNat ≤ 4096) {m : Nat}
    (hm : s.wrTotal.toNat + m ≤ 8 * s.wrCap.toNat) (rd : Reg) (u : Nat) : (s.finalize rd m u).Inv :=
  ((h.append hb hcap hm u).setWfin hb hcap).writeF rd _

/-! ## Completions -/

theorem State.Inv.succeeded (h : s.Inv) : s.succeeded.Inv :=
  { h with
    consistent := { h.consistent with busy_not_done := by simp }
    busy_cleared := by simp
    fresh := by simp }

/-- NONE is the one result of its command: issue has cleared ERR and REJ (10_state.md R40). -/
theorem State.Inv.setNone_succeeded (h : s.Inv) (hb : s.status.busy = true) : s.setNone.succeeded.Inv := by
  obtain ⟨herr, -, hrej⟩ := h.busy_cleared hb
  exact { h with
    consistent := { h.consistent with busy_not_done := by simp }
    busy_cleared := by simp
    one_result := by simp [herr]
    none_not_rej := fun _ => hrej
    fresh := by simp }

/-- REJ is the one result of its command: issue has cleared ERR and NONE (10_state.md R41). -/
theorem State.Inv.setRej_succeeded (h : s.Inv) (hb : s.status.busy = true) : s.setRej.succeeded.Inv := by
  obtain ⟨herr, hnone, -⟩ := h.busy_cleared hb
  exact { h with
    consistent := { h.consistent with busy_not_done := by simp }
    busy_cleared := by simp
    one_result := by simp [herr]
    none_not_rej := by simp [hnone]
    fresh := by simp }

/-- An error is the one result of its command: issue has cleared NONE and REJ (40_command_cycle.md R142). -/
theorem State.Inv.failedWith (h : s.Inv) (hb : s.status.busy = true) (e : CmdError) : (s.failedWith e.code).Inv := by
  obtain ⟨-, hnone, hrej⟩ := h.busy_cleared hb
  exact { h with
    consistent := { h.consistent with
      ecode_of_ok := by simp
      busy_not_done := by simp }
    ecode_of_err := fun _ => e.code_bounds
    busy_cleared := by simp
    one_result := fun _ => ⟨hnone, hrej⟩
    fresh := by simp }

/-- Every successful completion keeps the invariant: the checks of its rule have put the cursors in range. -/
theorem Effects.inv_succeeded {i : Instr} {u : State} (he : Effects i s u) (h : s.Inv) (hb : s.status.busy = true) :
    u.succeeded.Inv := by
  cases i <;> simp only [Effects] at he
  case nop => subst he; exact h.succeeded
  case czero => subst he; exact h.clearCoef.succeeded
  case finv => obtain ⟨a, x, -, -, rfl⟩ := he; exact (h.writeF _ _).succeeded
  case fadd | fsub | fmul => obtain ⟨a, b, -, -, rfl⟩ := he; exact (h.writeF _ _).succeeded
  case peval => obtain ⟨x, -, -, -, -, rfl⟩ := he; exact (h.writeF _ _).succeeded
  case cput => obtain ⟨j, a, -, -, rfl⟩ := he; exact (h.writeCoef _ _).succeeded
  case cget => obtain ⟨j, -, rfl⟩ := he; exact (h.writeF _ _).succeeded
  case fsample =>
    obtain ⟨-, rfl⟩ | ⟨-, rfl⟩ := he
    · exact h.setRej_succeeded hb
    · exact (h.writeF _ _).succeeded
  case rdbits rd k =>
    have hpos := h.consistent.rdPos_le
    obtain ⟨-, hlen, ⟨-, rfl⟩ | ⟨heos, hreal, rfl⟩ | ⟨heos, -, rfl⟩⟩ := he
    · exact h.setNone_succeeded hb
    · have hn : s.rdPos.toNat + k ≤ 8 * s.rdLen.toNat := by simp only [State.realLeft] at hreal; omega
      exact ((h.writeF _ _).setRdPos hb hlen heos hn).succeeded
    · have hlen : s.rdLen.toNat ≤ 4096 := hlen
      have hend : s.rdPos.toNat + s.realLeft = 8 * s.rdLen.toNat := by simp only [State.realLeft]; omega
      refine (((h.writeF _ _).setRdPos hb hlen heos hend.le).setEos hb hlen ?_).succeeded
      simp only [State.setRdPos_rdPos, State.setRdPos_rdLen, State.writeF_rdLen, BitVec.toNat_ofNat]
      omega
  case wrblk =>
    obtain ⟨-, hcap, -, hk, rfl⟩ := he
    exact (h.append hb hcap hk _).succeeded
  case wrfin =>
    obtain ⟨-, hcap, -, -, hm, rfl⟩ := he
    exact (h.finalize hb hcap hm _ _).succeeded

end Updates

/-! ## Steps and runs -/

/-- Each of the things a step can do keeps the invariant. -/
theorem State.Inv.step {s t : State} (h : s.Inv) (hst : step s = .next t) : t.Inv := by
  rcases step_cases s with
    ⟨ms, -, ⟨-, hs⟩ | ⟨hb, e, hs⟩ | ⟨hb, i, u, -, hs, hu⟩⟩ | ⟨a, ms, -, hs⟩ | ⟨a, v, ms, -, hs⟩ | ⟨ms, -, hs⟩ <;>
    obtain rfl := Host.Outcome.next.inj (hst.symm.trans hs)
  case inl.inl => exact h.withPending ms
  case inl.inr.inl => exact (h.withPending ms).failedWith hb e
  case inl.inr.inr => exact hu.inv_succeeded (h.withPending ms) hb
  case inr.inl => exact (h.withPending ms).hostRead a
  case inr.inr.inl => exact (h.withPending ms).hostWrite a v
  case inr.inr.inr => exact State.inv_clear _

/-- Every step has a next state: no event stops the machine (60_exceptions.md R253). -/
theorem step_next (s : State) : ∃ t, step s = .next t := by
  rcases step_cases s with
    ⟨ms, -, ⟨-, hs⟩ | ⟨-, e, hs⟩ | ⟨-, i, u, -, hs, -⟩⟩ | ⟨a, ms, -, hs⟩ | ⟨a, v, ms, -, hs⟩ | ⟨ms, -, hs⟩ <;>
    exact ⟨_, hs⟩

theorem run_succ {s u : State} (n : Nat) (hs : step s = .next u) :
    Sys2Proof.core.run (n + 1) s = Sys2Proof.core.run n u := by
  simp [Host.Core.run, Sys2Proof.core, hs]

/-- What every step keeps holds at the end of a run that starts from it. -/
theorem run_induction {P : State → Prop} (hstep : ∀ s t, P s → step s = .next t → P t) (n : Nat) {s t : State}
    (h : P s) (hrun : Sys2Proof.core.run n s = .next t) : P t := by
  induction n generalizing s with
  | zero => exact Host.Outcome.next.inj hrun ▸ h
  | succ n ih =>
    obtain ⟨u, hu⟩ := step_next s
    rw [run_succ n hu] at hrun
    exact ih (hstep s u h hu) hrun

/-- Settles O9: every clause holds of the zero state. -/
theorem resetMeetsTheInvariant : Obligations.ResetMeetsTheInvariant := State.inv_reset

/-- Settles O10, by what each update of a step does to the invariant. -/
theorem everyStepKeepsTheInvariant : Obligations.EveryStepKeepsTheInvariant := fun _ _ h hst => h.step hst

/-- Settles O11: R52 is a part of the invariant, which reset meets and every step keeps. -/
theorem reachableStatesAreConsistent : Obligations.ReachableStatesAreConsistent := by
  intro ms n t hrun
  obtain ⟨hpos, heos, htotal, hfits, hok, hbusy⟩ :=
    (run_induction (fun _ _ => State.Inv.step) n (State.inv_reset.withPending ms) hrun).consistent
  exact ⟨hpos, heos, htotal, hfits, hok, hbusy⟩

end Sys2Proof.Machine

/-! # The flags EOS, WFIN, NONE and REJ

What a step can do to each of the four, said once: only a successful completion sets one, and only a reset or the host
write of its own rule clears it (10_state.md R40, R41, R43, R44). -/

namespace Sys2Proof.Machine

/-- A flag that was `before` and is `after` has gone from 0 to 1 only where `Sets` holds, from 1 to 0 only where
`Clears` does. -/
def FlagChange (before after : Bool) (Sets Clears : Prop) : Prop :=
  (before = false → after = true → Sets) ∧ (before = true → after = false → Clears)

section FlagChange

variable {before after : Bool} {Sets Clears : Prop}

theorem FlagChange.of_kept (h : after = before) : FlagChange before after Sets Clears :=
  ⟨fun h0 h1 => by simp [h, h0] at h1, fun h0 h1 => by simp [h, h0] at h1⟩

theorem FlagChange.of_cleared (h : after = false) (hc : Clears) : FlagChange before after Sets Clears :=
  ⟨fun _ h1 => by simp [h] at h1, fun _ _ => hc⟩

theorem FlagChange.of_not_cleared (hkeep : before = true → after = true)
    (hset : before = false → after = true → Sets) : FlagChange before after Sets Clears :=
  ⟨hset, fun h0 h1 => by simp [hkeep h0] at h1⟩

end FlagChange

/-- The step from `s` to `t` is the completion of `i` at the core's turn (40_command_cycle.md R141). -/
def Completes (s t : State) (i : Instr) : Prop :=
  s.status.busy = true ∧ (s.bus.pending = [] ∨ ∃ ms, s.bus.pending = .core :: ms) ∧ t.status.done = true ∧
    decode s.cmd = .ok i

/-- The next event of `s` is a reset, or a host write to the offset `off` that is accepted. -/
def ResetOrWriteTo (off : Nat) (s : State) : Prop :=
  (∃ ms, s.bus.pending = .powerOn :: ms) ∨
  ∃ a v ms, s.bus.pending = .write a v :: ms ∧
    (a.offset = 0x0008 ∧ v.getLsbD 0 = true ∨ a.offset = off ∧ s.status.busy = false)

/-- How one step from `s` to `t` can change the four flags. -/
def FlagRules (s t : State) : Prop :=
  FlagChange s.status.eos t.status.eos
    (∃ rd k, Completes s t (.rdbits rd k) ∧ 8 * s.rdLen.toNat < s.rdPos.toNat + k) (ResetOrWriteTo 0x000C s) ∧
  FlagChange s.status.wfin t.status.wfin
    (∃ rd rs k, Completes s t (.wrfin rd rs k) ∧ t.status.err = s.status.err) (ResetOrWriteTo 0x0014 s) ∧
  FlagChange s.status.none t.status.none
    (∃ rd k, Completes s t (.rdbits rd k) ∧ s.status.eos = true) (ResetOrWriteTo 0x0000 s) ∧
  FlagChange s.status.rej t.status.rej
    (∃ rd rs, Completes s t (.fsample rd rs) ∧ Config.p ≤ s.fval rs % 2 ^ 31) (ResetOrWriteTo 0x0000 s)

section Step

variable {s t : State}

theorem flagRules_of_kept (heos : t.status.eos = s.status.eos) (hwfin : t.status.wfin = s.status.wfin)
    (hnone : t.status.none = s.status.none) (hrej : t.status.rej = s.status.rej) : FlagRules s t :=
  ⟨.of_kept heos, .of_kept hwfin, .of_kept hnone, .of_kept hrej⟩

/-- A successful completion clears no flag, and sets one only as the rule of its command says. -/
theorem flagRules_of_effects {i : Instr} {ms : List Move} {u : State} (hc : Completes s u.succeeded i)
    (hu : Effects i (s.withPending ms) u) : FlagRules s u.succeeded := by
  obtain ⟨eosKept, wfinKept, noneKept, rejKept, eosSet, wfinSet, noneSet, rejSet⟩ := hu.flags
  refine ⟨.of_not_cleared eosKept fun h0 h1 => ?_, .of_not_cleared wfinKept fun h0 h1 => ?_,
    .of_not_cleared noneKept fun h0 h1 => ?_, .of_not_cleared rejKept fun h0 h1 => ?_⟩
  · obtain ⟨rd, k, rfl, hk⟩ := eosSet h0 h1
    exact ⟨rd, k, hc, hk⟩
  · obtain ⟨rd, rs, k, rfl⟩ := wfinSet h0 h1
    obtain ⟨-, -, -, -, -, -, -, -, herr, -⟩ := hu.untouched
    exact ⟨rd, rs, k, hc, herr⟩
  · obtain ⟨heos, rd, k, rfl⟩ := noneSet h0 h1
    exact ⟨rd, k, hc, heos⟩
  · obtain ⟨rd, rs, rfl, hge⟩ := rejSet h0 h1
    exact ⟨rd, rs, hc, hge⟩

/-- A host write sets no flag, and clears one only as the offset says. -/
theorem flagRules_hostWrite {a : WordAddr} {v : Word} {ms : List Move} (hp : s.bus.pending = .write a v :: ms) :
    FlagRules s ((s.withPending ms).hostWrite a v) := by
  obtain ⟨heos, hwfin, hres⟩ := hostWrite_flags (s.withPending ms) a v
  refine ⟨?_, ?_, ?_, ?_⟩
  · obtain hkept | ⟨hwhy, hclear⟩ := heos
    · exact .of_kept hkept
    · exact .of_cleared hclear (.inr ⟨a, v, ms, hp, hwhy⟩)
  · obtain hkept | ⟨hwhy, hclear⟩ := hwfin
    · exact .of_kept hkept
    · exact .of_cleared hclear (.inr ⟨a, v, ms, hp, hwhy⟩)
  · obtain ⟨hkept, -⟩ | ⟨hwhy, hclear, -⟩ := hres
    · exact .of_kept hkept
    · exact .of_cleared hclear (.inr ⟨a, v, ms, hp, hwhy⟩)
  · obtain ⟨-, hkept⟩ | ⟨hwhy, -, hclear⟩ := hres
    · exact .of_kept hkept
    · exact .of_cleared hclear (.inr ⟨a, v, ms, hp, hwhy⟩)

theorem flagRules_powerOn {ms : List Move} (hp : s.bus.pending = .powerOn :: ms) :
    FlagRules s (s.withPending ms).clear := by
  have hr (off : Nat) : ResetOrWriteTo off s := .inl ⟨ms, hp⟩
  exact ⟨.of_cleared rfl (hr _), .of_cleared rfl (hr _), .of_cleared rfl (hr _), .of_cleared rfl (hr _)⟩

/-- Every step changes the four flags only by their rules. -/
theorem step_flagRules (hst : step s = .next t) : FlagRules s t := by
  rcases step_cases s with
    ⟨ms, hturn, ⟨-, hs⟩ | ⟨-, e, hs⟩ | ⟨hb, i, u, hi, hs, hu⟩⟩ | ⟨a, ms, -, hs⟩ | ⟨a, v, ms, hp, hs⟩ | ⟨ms, hp, hs⟩ <;>
    obtain rfl := Host.Outcome.next.inj (hst.symm.trans hs)
  case inl.inl => exact flagRules_of_kept rfl rfl rfl rfl
  case inl.inr.inl => exact flagRules_of_kept rfl rfl rfl rfl
  case inl.inr.inr => exact flagRules_of_effects ⟨hb, hturn.imp (·.1) (⟨ms, ·⟩), rfl, hi⟩ hu
  case inr.inl =>
    obtain ⟨hstatus, -⟩ := hostRead_frame (s.withPending ms) a
    apply flagRules_of_kept <;> simp [hstatus]
  case inr.inr.inl => exact flagRules_hostWrite hp
  case inr.inr.inr => exact flagRules_powerOn hp

end Step

/-- Settles O50, by the rule for EOS. -/
theorem onlyTheReaderSetsEos : Obligations.OnlyTheReaderSetsEos := by
  intro s t hst
  obtain ⟨⟨hset, hclear⟩, -⟩ := step_flagRules hst
  refine ⟨fun h0 h1 => ?_, hclear⟩
  obtain ⟨rd, k, ⟨hb, hturn, hd, hi⟩, hk⟩ := hset h0 h1
  exact ⟨hb, hturn, hd, rd, k, hi, hk⟩

/-- Settles O51, by the rule for WFIN: the WRFIN leaves ERR as it was, so it does not fail. -/
theorem onlyWrfinSetsWfin : Obligations.OnlyWrfinSetsWfin := by
  intro s t hst
  obtain ⟨-, ⟨hset, hclear⟩, -⟩ := step_flagRules hst
  refine ⟨fun h0 h1 => ?_, hclear⟩
  obtain ⟨rd, rs, k, ⟨hb, hturn, hd, hi⟩, herr⟩ := hset h0 h1
  exact ⟨hb, hturn, hd, herr.trans, rd, rs, k, hi⟩

/-- Settles O52, by the rules for NONE and REJ. -/
theorem noneAndRejDescribeTheLatestCommand : Obligations.NoneAndRejDescribeTheLatestCommand := by
  intro s t hst
  obtain ⟨-, -, ⟨noneSet, noneClear⟩, ⟨rejSet, rejClear⟩⟩ := step_flagRules hst
  refine ⟨fun h0 h1 => ?_, fun h0 h1 => ?_, ?_⟩
  · obtain ⟨rd, k, ⟨hb, hturn, hd, hi⟩, heos⟩ := noneSet h0 h1
    exact ⟨hb, hturn, hd, heos, rd, k, hi⟩
  · obtain ⟨rd, rs, ⟨hb, hturn, hd, hi⟩, hge⟩ := rejSet h0 h1
    exact ⟨hb, hturn, hd, rd, rs, hi, hge⟩
  · rintro (⟨h0, h1⟩ | ⟨h0, h1⟩)
    · exact noneClear h0 h1
    · exact rejClear h0 h1

/-- Settles O53: a failure writes nothing but STATUS, and no effect of a success touches the configuration. -/
theorem commandsNeverWriteTheirConfiguration : Obligations.CommandsNeverWriteTheirConfiguration := by
  intro i s t ht
  rcases exec_cases i s with ⟨e, he⟩ | ⟨u, he, hu⟩ <;> obtain rfl := Host.Outcome.next.inj (ht.symm.trans he)
  · exact ⟨rfl, rfl, rfl, rfl, rfl, rfl, rfl, rfl, rfl⟩
  · obtain ⟨hrdbuf, hcmd, hlen, hcap, hcount, hbus, -, -, -, -, hwbusy⟩ := hu.untouched
    exact ⟨hrdbuf, hcmd, hlen, hcap, hcount, hbus, rfl, rfl, hwbusy⟩

/-! ## The layout of STATUS -/

/-- The fields of STATUS by bit position, from bit 0 on (10_state.md R35). -/
def Status.bits (st : Status) : List Bool :=
  [st.busy, st.done, st.err, false, st.ecode.getLsbD 0, st.ecode.getLsbD 1, st.ecode.getLsbD 2, st.ecode.getLsbD 3,
    st.none, st.rej, st.wbusy, false, st.eos, st.wfin]

theorem Status.getLsbD_word (st : Status) (n : Nat) : st.word.getLsbD n = st.bits.getD n false := by
  simp only [Status.word, BitVec.getLsbD_append]
  by_cases hn : n < 14
  · interval_cases n <;> simp [Status.bits]
  · obtain ⟨m, rfl⟩ := Nat.exists_eq_add_of_le' (not_lt.mp hn)
    simp [Status.bits]

/-- Settles O27, by the list of the fields. -/
theorem statusWordLayout : Obligations.StatusWordLayout := by
  intro st
  have hbit := st.getLsbD_word
  refine ⟨hbit 0, hbit 1, hbit 2, hbit 3, ?_, hbit 8, hbit 9, hbit 10, hbit 11, hbit 12, hbit 13, fun n hn => ?_⟩
  · apply BitVec.eq_of_getLsbD_eq
    intro i hi
    rw [BitVec.getLsbD_extractLsb', hbit]
    interval_cases i <;> rfl
  · rw [hbit]
    exact List.getD_eq_default _ _ hn

end Sys2Proof.Machine

/-! # Host transactions with an idle core

With BUSY = 0 every read returns the value of its location and every write is accepted (20_memory.md R85 to R89). A read
and a write are each said once, for any offset; the offsets then follow from the address map. -/

namespace Sys2Proof.Machine

section IdleBus

variable {s : State} {a : WordAddr} {v : Word} {ms : List Move}

/-! ## One transaction -/

/-- A read of an idle core records the value of its location, and nothing else changes (20_memory.md R85). -/
theorem step_idleRead (hb : s.status.busy = false) (hp : s.bus.pending = .read a :: ms) :
    step s = .next { s with bus := { s.bus with pending := ms, rdata := s.valueAt (locate a) } } := by
  have hread : (s.withPending ms).hostRead a =
      { s.withPending ms with bus := { s.bus with pending := ms, rdata := s.valueAt (locate a) } } :=
    if_pos (.inl hb)
  rw [step_move hp, perform, hread]
  rfl

/-- What a write does to the core does not depend on the moves to come. -/
theorem State.accept_withPending (s : State) (ms : List Move) (v : Word) (loc : Location) :
    (s.withPending ms).accept v loc = (s.accept v loc).withPending ms := by
  cases loc with
  | ctrl =>
    simp only [State.accept]
    split <;> rfl
  | _ => rfl

/-- A write to an idle core is accepted at its location. -/
theorem step_idleWrite (hb : s.status.busy = false) (hp : s.bus.pending = .write a v :: ms) :
    step s = .next ((s.accept v (locate a)).withPending ms) := by
  have hwrite : (s.withPending ms).hostWrite a v = (s.withPending ms).accept v (locate a) :=
    if_neg (by simp [hb])
  rw [step_move hp, perform, hwrite, State.accept_withPending]

/-! ## A write and then a read -/

/-- Only an issue sets BUSY. -/
theorem State.accept_idle (hb : s.status.busy = false) (v : Word) {loc : Location} (hloc : loc ≠ .cmd) :
    (s.accept v loc).status.busy = false := by
  cases loc with
  | cmd => exact absurd rfl hloc
  | ctrl =>
    simp only [State.accept]
    split
    · rfl
    · exact hb
  | _ => exact hb

/-- A write to any offset but CMD, then a read of it: the host gets the value that the accepted write has left there. -/
theorem run_idleWrite_read (hb : s.status.busy = false) (hp : s.bus.pending = .write a v :: .read a :: ms)
    (ha : a.offset ≠ 0x0000) :
    ∃ t, Sys2Proof.core.run 2 s = .next t ∧ t.bus.pending = ms ∧
      t.bus.rdata = (s.accept v (locate a)).valueAt (locate a) := by
  have hidle : ((s.accept v (locate a)).withPending (.read a :: ms)).status.busy = false :=
    State.accept_idle hb v (mt locate_eq_cmd.mp ha)
  rw [run_succ 1 (step_idleWrite hb hp), run_succ 0 (step_idleRead hidle rfl)]
  exact ⟨_, rfl, rfl, rfl⟩

/-- A location that holds a whole word, F, COEF or a buffer word, reads as it was written (20_memory.md R89). -/
theorem State.valueAt_accept_word (hr : s.rdbuf.wf) (hw : s.wrbuf.wf) (v : Word) {loc : Location}
    (h : (∃ i, loc = .f i) ∨ (∃ j, loc = .coef j) ∨ (∃ i, loc = .rdbuf i) ∨ ∃ i, loc = .wrbuf i) :
    (s.accept v loc).valueAt loc = v := by
  obtain ⟨i, rfl⟩ | ⟨j, rfl⟩ | ⟨i, rfl⟩ | ⟨i, rfl⟩ := h
  · exact s.readF_writeF_same i v
  · exact s.readCoef_writeCoef_same j v
  · exact Memory.readWord_writeWord_same v hr i.isLt
  · exact Memory.readWord_writeWord_same v hw i.isLt

end IdleBus

/-! ## Offsets and widths -/

theorem WordAddr.offset_mod_four (a : WordAddr) : a.offset % 4 = 0 := Nat.mul_mod_right 4 _

/-- The rows of the map that hold whole words: F, COEF and the two buffers (20_memory.md R86). -/
theorem locate_word {a : WordAddr} (h : (0x0040 ≤ a.offset ∧ a.offset ≤ 0x007C) ∨
    (0x0400 ≤ a.offset ∧ a.offset ≤ 0x07FC) ∨ (0x1000 ≤ a.offset ∧ a.offset ≤ 0x2FFC)) :
    (∃ i, locate a = .f i) ∨ (∃ j, locate a = .coef j) ∨ (∃ i, locate a = .rdbuf i) ∨ ∃ i, locate a = .wrbuf i := by
  have h4 := WordAddr.offset_mod_four a
  obtain hf | hc | hbuf := h
  · exact .inl ⟨_, locate_f ⟨(a.offset - 0x0040) / 4, by omega⟩ (by dsimp only; omega)⟩
  · exact .inr (.inl ⟨_, locate_coef ⟨(a.offset - 0x0400) / 4, by omega⟩ (by dsimp only; omega)⟩)
  · by_cases hr : a.offset < 0x2000
    · exact .inr (.inr (.inl ⟨_, locate_rdbuf (i := (a.offset - 0x1000) / 4) (by omega) (by omega)⟩))
    · exact .inr (.inr (.inr ⟨_, locate_wrbuf (i := (a.offset - 0x2000) / 4) (by omega) (by omega)⟩))

/-- A register of k bits keeps the low k bits of what is written, and its reserved bits read 0 (20_memory.md R87). -/
theorem setWidth_setWidth_eq_and (v : Word) (k : Nat) :
    (v.setWidth k).setWidth 32 = v &&& BitVec.ofNat 32 (2 ^ k - 1) := by
  have hand : v &&& BitVec.ofNat 32 (2 ^ k - 1) = BitVec.ofNat 32 (v.toNat &&& (2 ^ k - 1)) := by
    rw [BitVec.ofNat_and, BitVec.ofNat_toNat, BitVec.setWidth_eq]
  rw [hand, Nat.and_two_pow_sub_one_eq_mod]
  exact BitVec.eq_of_toNat_eq (by simp)

/-- What a bus write leaves of a buffer: its four bytes, the highest first, and every other byte as it was (R82). -/
theorem Memory.writeWord_bytes {m : Memory} {i : Nat} (v : Word) (h : m.wf) (hi : i < 1024) :
    (m.writeWord i v).wf ∧
    (m.writeWord i v).read (4 * i) = v.extractLsb' 24 8 ∧ (m.writeWord i v).read (4 * i + 1) = v.extractLsb' 16 8 ∧
    (m.writeWord i v).read (4 * i + 2) = v.extractLsb' 8 8 ∧ (m.writeWord i v).read (4 * i + 3) = v.extractLsb' 0 8 ∧
    ∀ b, b < 4 * i ∨ 4 * i + 3 < b → (m.writeWord i v).read b = m.read b := by
  have lane (j : Nat) (hj : j < 4) := Memory.read_writeWord_inside v h hi hj
  exact ⟨Memory.wf_writeWord v h hi, lane 0 (by decide), lane 1 (by decide), lane 2 (by decide), lane 3 (by decide),
    fun b hb => Memory.read_writeWord_outside v h hi hb⟩

/-! ## The statements -/

/-- Settles O20: a read gives the value of its location, and the address map says which location that is. -/
theorem idleReadReturnsTheLocation : Obligations.IdleReadReturnsTheLocation := by
  intro s a ms hb hp
  have wide {w : Nat} (x : BitVec w) (hw : w ≤ 32) : (x.setWidth 32).toNat = x.toNat := BitVec.toNat_setWidth_of_le hw
  refine ⟨s.valueAt (locate a), step_idleRead hb hp, fun h => ?_, fun h => ?_, fun h => ?_, fun h => ?_, fun h => ?_,
    fun h => ?_, fun h => ?_, fun h => ?_, fun i h => ?_, fun j h => ?_, fun i hi h => ?_, fun i hi h => ?_, fun h => ?_⟩
  · rw [locate_cmd h]; rfl
  · rw [locate_status h]; rfl
  · rw [locate_ctrl h]; rfl
  · rw [locate_rdLen h]; exact wide s.rdLen (by decide)
  · rw [locate_rdPos h]; exact wide s.rdPos (by decide)
  · rw [locate_wrCap h]; exact wide s.wrCap (by decide)
  · rw [locate_wrTotal h]; exact wide s.wrTotal (by decide)
  · rw [locate_pcount h]; exact wide s.pcount (by decide)
  · rw [locate_f i h]; rfl
  · rw [locate_coef j h]; rfl
  · rw [locate_rdbuf hi h]; rfl
  · rw [locate_wrbuf hi h]; rfl
  · rw [locate_reserved h]; rfl

/-- Settles O24: a write is accepted at the location of its offset, and a buffer word is its four bytes. -/
theorem idleWriteStoresOnlyThere : Obligations.IdleWriteStoresOnlyThere := by
  intro s a v ms hb hr hw hp
  rw [step_idleWrite hb hp]
  refine ⟨fun h => ?_, fun i h => ?_, fun j h => ?_, fun i hi h => ?_, fun i hi h => ?_⟩
  · have hlow : BitVec.ofNat 9 (v.toNat % 512) = v.setWidth 9 := BitVec.eq_of_toNat_eq (by simp)
    rw [locate_pcount h, hlow]
    rfl
  · rw [locate_f i h]
    rfl
  · rw [locate_coef j h]
    rfl
  · rw [locate_rdbuf hi h]
    exact ⟨_, rfl, Memory.writeWord_bytes v hr hi⟩
  · rw [locate_wrbuf hi h]
    exact ⟨_, rfl, Memory.writeWord_bytes v hw hi⟩

/-- Settles O25: at each of these locations an accepted write leaves the state as it is. -/
theorem readOnlyAndReservedWritesAreIgnored : Obligations.ReadOnlyAndReservedWritesAreIgnored := by
  intro s a v ms hb
  refine ⟨fun hp h => ?_, fun hp => ?_⟩
  · rw [step_idleWrite hb hp]
    obtain hstatus | hpos | htotal | hres := h
    · rw [locate_status hstatus]; rfl
    · rw [locate_rdPos hpos]; rfl
    · rw [locate_wrTotal htotal]; rfl
    · rw [locate_reserved hres]; rfl
  · rw [step_idleRead hb hp, locate_ctrl (WordAddr.offset_ofOffset (by decide) (by decide))]
    rfl

/-- Settles O26: the read returns what the accepted write has left, a whole word or the low bits of a register. -/
theorem readReturnsTheLatestWrite : Obligations.ReadReturnsTheLatestWrite := by
  intro s a v ms hb hr hw hp hcmd _
  obtain ⟨t, hrun, hpending, hdata⟩ := run_idleWrite_read hb hp hcmd
  refine ⟨t, hrun, hpending, fun h => ?_, ?_, fun h => ?_⟩
  · rw [hdata]
    exact State.valueAt_accept_word hr hw v (locate_word h)
  · rintro (h | h)
    · rw [hdata, locate_rdLen h]
      exact setWidth_setWidth_eq_and v 13
    · rw [hdata, locate_wrCap h]
      exact setWidth_setWidth_eq_and v 13
  · rw [hdata, locate_pcount h]
    exact setWidth_setWidth_eq_and v 9

end Sys2Proof.Machine

/-! # The encoding of commands

A word is a row's command exactly when it meets the row's mask and match (30_encoding.md R116), and every command has
one word (R117 to R120). Both are said once, of any row of the opcode map. -/

namespace Sys2Proof

section Rows

variable {r : Row} {w : Word}

/-! ## From a word to its row -/

/-- Every mask covers OPC, and the match has the row's opcode there. -/
theorem opcode_of_mem : ∀ r ∈ opcodeMap,
    r.mask.extractLsb' 24 8 = BitVec.allOnes 8 ∧ r.pattern.extractLsb' 24 8 = r.opc := by
  decide

/-- Every mask covers RSV, and the match is 0 there (30_encoding.md R115). -/
theorem reserved_of_mem : ∀ r ∈ opcodeMap,
    r.mask.extractLsb' 6 6 = BitVec.allOnes 6 ∧ r.pattern.extractLsb' 6 6 = 0#6 := by
  decide

/-- Where the mask covers a field, a word that meets mask and match has the match's field. -/
theorem extract_of_masked {mask pattern : Word} {a l : Nat} (h : w &&& mask = pattern)
    (hmask : mask.extractLsb' a l = BitVec.allOnes l) : w.extractLsb' a l = pattern.extractLsb' a l := by
  rw [← h, extract_and, hmask, BitVec.and_allOnes]

theorem opcField_of_masked (hr : r ∈ opcodeMap) (h : w &&& r.mask = r.pattern) : r.opc = opcField w := by
  obtain ⟨hmask, hpattern⟩ := opcode_of_mem r hr
  exact hpattern.symm.trans (extract_of_masked h hmask).symm

theorem rsvField_of_masked (hr : r ∈ opcodeMap) (h : w &&& r.mask = r.pattern) : rsvField w = 0 := by
  obtain ⟨hmask, hpattern⟩ := reserved_of_mem r hr
  exact (extract_of_masked h hmask).trans hpattern

/-- The opcode number names the row. -/
theorem row_eq_of_opc {r' : Row} (hr : r ∈ opcodeMap) (hr' : r' ∈ opcodeMap) (h : r.opc = r'.opc) : r = r' := by
  have hrow := rowOf_mem hr
  rw [h, rowOf_mem hr'] at hrow
  exact (Option.some.inj hrow).symm

/-! ## From a row to its command's word -/

/-- The field of l bits from bit a on is an operand of the row's format: the mask leaves it free. -/
def Row.isOperand (r : Row) (a l : Nat) : Bool := r.mask.extractLsb' a l == 0#l

/-- A field that is no operand is covered by the mask, and the match is 0 there (R115). -/
theorem unused_of_mem : ∀ r ∈ opcodeMap, ∀ f ∈ [(20, 4), (16, 4), (12, 4), (0, 6)], ¬ r.isOperand f.1 f.2 →
    r.mask.extractLsb' f.1 f.2 = BitVec.allOnes f.2 ∧ r.pattern.extractLsb' f.1 f.2 = 0#f.2 := by
  decide

theorem extract_of_unused {a l : Nat} (hr : r ∈ opcodeMap) (h : w &&& r.mask = r.pattern)
    (hf : (a, l) ∈ [(20, 4), (16, 4), (12, 4), (0, 6)]) (hunused : ¬ r.isOperand a l) :
    w.extractLsb' a l = 0#l := by
  obtain ⟨hmask, hpattern⟩ := unused_of_mem r hr (a, l) hf hunused
  exact (extract_of_masked h hmask).trans hpattern

/-- The word of a row's command: the operands of its format, and 0 in every other field. -/
theorem encode_build (hr : r ∈ opcodeMap) (rd rs1 rs2 : Reg) (k : Nat) :
    encode (r.build rd rs1 rs2 k) =
      assemble r.opc (if r.isOperand 20 4 then rd else 0) (if r.isOperand 16 4 then rs1 else 0)
        (if r.isOperand 12 4 then rs2 else 0) (if r.isOperand 0 6 then k else 0) := by
  simp only [opcodeMap, List.mem_cons, List.not_mem_nil, or_false] at hr
  rcases hr with rfl | rfl | rfl | rfl | rfl | rfl | rfl | rfl | rfl | rfl | rfl | rfl | rfl <;> rfl

theorem opcField_encode_build (hr : r ∈ opcodeMap) (rd rs1 rs2 : Reg) (k : Nat) :
    opcField (encode (r.build rd rs1 rs2 k)) = r.opc := by
  rw [encode_build hr, opcField_assemble]

theorem wf_build (hr : r ∈ opcodeMap) (rd rs1 rs2 : Reg) {k : Nat} (hk : k < 64) :
    (r.build rd rs1 rs2 k).wf = true := by
  have hwidth : encodableWidth k = true := decide_eq_true hk
  simp only [opcodeMap, List.mem_cons, List.not_mem_nil, or_false] at hr
  rcases hr with rfl | rfl | rfl | rfl | rfl | rfl | rfl | rfl | rfl | rfl | rfl | rfl | rfl <;>
    simp only [Instr.wf, hwidth]

/-! ## Both directions -/

/-- A word decodes to a row's command, its own fields the operands, exactly when it meets the row's mask and match. -/
theorem masked_iff_decode (hr : r ∈ opcodeMap) (w : Word) :
    w &&& r.mask = r.pattern ↔ decode w = .ok (r.build (rdField w) (rs1Field w) (rs2Field w) (kField w)) := by
  rw [decode_eq_ok_iff]
  constructor
  · intro h
    exact ⟨r, hr, opcField_of_masked hr h, h, rfl⟩
  · rintro ⟨r', hr', -, h, hbuild⟩
    have hopc : r.opc = r'.opc := by
      rw [← opcField_encode_build hr, hbuild, opcField_encode_build hr']
    rwa [row_eq_of_opc hr hr' hopc]

/-- A word that meets a row's mask and match is the word of the command it decodes to. -/
theorem encode_build_fields (hr : r ∈ opcodeMap) (h : w &&& r.mask = r.pattern) :
    encode (r.build (rdField w) (rs1Field w) (rs2Field w) (kField w)) = w := by
  have hrd : (if r.isOperand 20 4 then rdField w else 0) = rdField w :=
    ite_eq_left_iff.mpr fun hn => (rdField_eq_zero.mpr (extract_of_unused hr h (by decide) hn)).symm
  have hrs1 : (if r.isOperand 16 4 then rs1Field w else 0) = rs1Field w :=
    ite_eq_left_iff.mpr fun hn => (rs1Field_eq_zero.mpr (extract_of_unused hr h (by decide) hn)).symm
  have hrs2 : (if r.isOperand 12 4 then rs2Field w else 0) = rs2Field w :=
    ite_eq_left_iff.mpr fun hn => (rs2Field_eq_zero.mpr (extract_of_unused hr h (by decide) hn)).symm
  have hk : (if r.isOperand 0 6 then kField w else 0) = kField w :=
    ite_eq_left_iff.mpr fun hn => (kField_eq_zero.mpr (extract_of_unused hr h (by decide) hn)).symm
  rw [encode_build hr, hrd, hrs1, hrs2, hk, opcField_of_masked hr h, assemble_fields (rsvField_of_masked hr h)]

end Rows

/-- A word that decodes to a command is the word of that command, which is well-formed. -/
theorem encode_of_decode {w : Word} {i : Instr} (h : decode w = .ok i) : i.wf = true ∧ encode i = w := by
  obtain ⟨r, hr, -, hmasked, rfl⟩ := decode_eq_ok_iff.mp h
  exact ⟨wf_build hr _ _ _ (kField_lt w), encode_build_fields hr hmasked⟩

/-- The row of its opcode accepts the word of every command (family RowMatch). -/
theorem encode_accepted (i : Instr) : Laws.RowMatch.Statement i :=
  match i with
  | .nop => Laws.RowMatch.nop
  | .finv rd rs1 => Laws.RowMatch.finv rd rs1
  | .rdbits rd k => Laws.RowMatch.rdbits rd k
  | .wrblk rs1 k => Laws.RowMatch.wrblk rs1 k
  | .wrfin rd rs1 k => Laws.RowMatch.wrfin rd rs1 k
  | .fadd rd rs1 rs2 => Laws.RowMatch.fadd rd rs1 rs2
  | .fsub rd rs1 rs2 => Laws.RowMatch.fsub rd rs1 rs2
  | .fmul rd rs1 rs2 => Laws.RowMatch.fmul rd rs1 rs2
  | .fsample rd rs1 => Laws.RowMatch.fsample rd rs1
  | .peval rd rs1 => Laws.RowMatch.peval rd rs1
  | .czero => Laws.RowMatch.czero
  | .cput rs1 rs2 => Laws.RowMatch.cput rs1 rs2
  | .cget rd rs2 => Laws.RowMatch.cget rd rs2

/-- A well-formed command is the command of one of the rows, with the fields of its word as operands. -/
theorem exists_row_build (i : Instr) (h : i.wf = true) : ∃ r ∈ opcodeMap,
    i = r.build (rdField (encode i)) (rs1Field (encode i)) (rs2Field (encode i)) (kField (encode i)) := by
  have row (n : Fin 13) : opcodeMap[n] ∈ opcodeMap := List.getElem_mem _
  have width {k : Nat} (hk : encodableWidth k = true) : k % 64 = k := Nat.mod_eq_of_lt (of_decide_eq_true hk)
  cases i with
  | nop => exact ⟨_, row 0, rfl⟩
  | finv rd rs1 => exact ⟨_, row 1, by simp [opcodeMap, encode]⟩
  | rdbits rd k => exact ⟨_, row 2, by simp [opcodeMap, encode, kField_assemble, width h]⟩
  | wrblk rs1 k => exact ⟨_, row 3, by simp [opcodeMap, encode, kField_assemble, width h]⟩
  | wrfin rd rs1 k => exact ⟨_, row 4, by simp [opcodeMap, encode, kField_assemble, width h]⟩
  | fadd rd rs1 rs2 => exact ⟨_, row 5, by simp [opcodeMap, encode]⟩
  | fsub rd rs1 rs2 => exact ⟨_, row 6, by simp [opcodeMap, encode]⟩
  | fmul rd rs1 rs2 => exact ⟨_, row 7, by simp [opcodeMap, encode]⟩
  | fsample rd rs1 => exact ⟨_, row 8, by simp [opcodeMap, encode]⟩
  | peval rd rs1 => exact ⟨_, row 9, by simp [opcodeMap, encode]⟩
  | czero => exact ⟨_, row 10, rfl⟩
  | cput rs1 rs2 => exact ⟨_, row 11, by simp [opcodeMap, encode]⟩
  | cget rd rs2 => exact ⟨_, row 12, by simp [opcodeMap, encode]⟩

/-- A well-formed command decodes from its own word. -/
theorem decode_encode {i : Instr} (h : i.wf = true) : decode (encode i) = .ok i := by
  obtain ⟨r, hr, hi⟩ := exists_row_build i h
  obtain ⟨r', hr', hopc, haccepts⟩ := encode_accepted i
  have hrow : r' = r := by
    apply row_eq_of_opc hr' hr
    rw [hopc, hi, opcField_encode_build hr]
  have hmasked : encode i &&& r.mask = r.pattern := hrow ▸ eq_of_beq haccepts
  exact ((masked_iff_decode hr _).mp hmasked).trans (congrArg _ hi.symm)

/-! ## The statements about the encoding -/

/-- Settles O3: a row accepts the command's word, and the word's fields are the command's operands. -/
theorem decodeOfEncodeIsTheCommand : Obligations.DecodeOfEncodeIsTheCommand := fun _ h => decode_encode h

/-- Settles O1, row by row. -/
theorem wordsMatchingARowDecodeToIt : Obligations.WordsMatchingARowDecodeToIt := by
  intro w
  have row (n : Fin 13) := masked_iff_decode (r := opcodeMap[n]) (List.getElem_mem _) w
  exact ⟨row 0, row 1, row 2, row 3, row 4, row 5, row 6, row 7, row 8, row 9, row 10, row 11, row 12⟩

/-- Settles O4: the fields that the row's mask covers are 0, and the others are the command's operands. -/
theorem encodeOfDecodeIsTheWord : Obligations.EncodeOfDecodeIsTheWord := fun _ _ h => encode_of_decode h

/-- Settles O6: the word is the command's own (O4), and the encoder leaves RSV and every unused field 0. -/
theorem unusedFieldsAreZero : Obligations.UnusedFieldsAreZero := by
  intro w i h
  obtain ⟨-, rfl⟩ := encode_of_decode h
  refine ⟨?_, ?_, ?_, ?_, ?_, ?_, ?_, ?_, ?_⟩
  · cases i <;> simp only [encode, rsvField_assemble]
  · rintro (rfl | rfl) <;> simp [encode, kField_assemble]
  · rintro rd rs1 (rfl | rfl | rfl) <;> simp [encode, kField_assemble]
  · rintro rd k rfl; simp [encode]
  · rintro rs1 k rfl; simp [encode]
  · rintro rd rs1 k rfl; simp [encode]
  · rintro rd rs1 rs2 (rfl | rfl | rfl) <;> simp [encode, kField_assemble]
  · rintro rs1 rs2 rfl; simp [encode, kField_assemble]
  · rintro rd rs2 rfl; simp [encode, kField_assemble]

/-- Settles O2: a field of l bits from bit a on is the word divided by 2 ^ a, modulo 2 ^ l. -/
theorem commandWordIsItsSixFields : Obligations.CommandWordIsItsSixFields := by
  intro w
  have field (a l : Nat) : (w.extractLsb' a l).toNat = w.toNat / 2 ^ a % 2 ^ l := by
    rw [BitVec.extractLsb'_toNat, Nat.shiftRight_eq_div_pow]
  have hopc : w.toNat / 2 ^ 24 < 2 ^ 8 := by have := w.isLt; omega
  refine ⟨?_, field 20 4, field 16 4, field 12 4, field 6 6, ?_⟩
  · exact (field 24 8).trans (Nat.mod_eq_of_lt hopc)
  · exact (field 0 6).trans (by simp)

/-- Settles O5, by running the decoder on the thirteen words. -/
theorem exampleWordsDecode : Obligations.ExampleWordsDecode := by
  unfold Obligations.ExampleWordsDecode
  decide

end Sys2Proof

namespace Sys2Proof.Machine

/-! ## Widths -/

/-- Settles O7: a width below 64 is encodable, and the check of the width comes first in all three commands. -/
theorem everyWidthDecodesAndOnlyOneToThirtyTwoAreLegal :
    Obligations.EveryWidthDecodesAndOnlyOneToThirtyTwoAreLegal := by
  refine ⟨fun _ => rfl, fun k rd rs s hk => ⟨decode_encode (decide_eq_true hk), decode_encode (decide_eq_true hk),
    decode_encode (decide_eq_true hk), fun hillegal => ?_⟩⟩
  have hwidth : legalWidth k = false := legalWidth_false_iff.mpr hillegal
  exact ⟨if_pos hwidth, if_pos hwidth, if_pos hwidth⟩

/-! ## A command line -/

section CommandLine

variable {s t : State} {i : Instr} {ms : List Move}

/-- A read of STATUS returns its value, whether the core is busy or not (20_memory.md R86, 40_command_cycle.md R145). -/
theorem step_statusRead (hp : s.bus.pending = .read (WordAddr.ofOffset 0x0004) :: ms) :
    step s = .next { s with bus := ⟨ms, s.status.word, s.bus.draws⟩ } := by
  have hloc : locate (WordAddr.ofOffset 0x0004) = .status := by decide
  have hread : (s.withPending ms).hostRead (WordAddr.ofOffset 0x0004) =
      { s.withPending ms with bus := ⟨ms, s.valueAt (locate (WordAddr.ofOffset 0x0004)), s.bus.draws⟩ } :=
    if_pos (.inr (.inr hloc))
  rw [step_move hp, perform, hread, hloc]
  rfl

/-- Polls of STATUS change nothing but the host's own record of what it has read. -/
theorem run_statusReads (n m : Nat) (hp : s.bus.pending = List.replicate n (.read (WordAddr.ofOffset 0x0004)) ++ ms) :
    ∃ v, Sys2Proof.core.run (n + m) s = Sys2Proof.core.run m { s with bus := ⟨ms, v, s.bus.draws⟩ } := by
  induction n generalizing s with
  | zero =>
    have hp : s.bus.pending = ms := hp
    exact ⟨s.bus.rdata, by rw [← hp, Nat.zero_add]⟩
  | succ n ih =>
    rw [Nat.succ_add, run_succ (n + m) (step_statusRead hp)]
    exact ih rfl

/-- The write of a command word to CMD issues it (40_command_cycle.md R140). -/
theorem step_issue {w : Word} (hb : s.status.busy = false)
    (hp : s.bus.pending = .write (WordAddr.ofOffset 0x0000) w :: ms) : step s = .next ((s.issue w).withPending ms) := by
  have hloc : locate (WordAddr.ofOffset 0x0000) = .cmd := by decide
  rw [step_idleWrite hb hp, hloc]
  rfl

theorem completion_of_decode (h : decode s.cmd = .ok i) : completion s = exec i s := by
  simp only [completion, h]

/-- The core's turn with a command in flight runs it and uses up the move, whatever the bus has done before. -/
theorem step_completion {b : Bus} (hb : s.status.busy = true) (hcmd : decode s.cmd = .ok i)
    (hexec : exec i { s with bus := b } = .next t) (hp : s.bus.pending = .core :: ms) :
    step s = .next { t with bus := { s.bus with pending := ms } } :=
  calc step s
    _ = coreTurn (s.withPending ms) := step_coreTurn (.inr hp)
    _ = completion (s.withPending ms) := if_pos hb
    _ = exec i (s.withPending ms) := completion_of_decode hcmd
    _ = .next { t with bus := { s.bus with pending := ms } } := exec_bus (s := { s with bus := b }) i _ hexec

/-- Every completion clears BUSY and sets DONE (40_command_cycle.md R141). -/
theorem exec_done (h : exec i s = .next t) : t.status.busy = false ∧ t.status.done = true := by
  rcases exec_cases i s with ⟨e, he⟩ | ⟨u, hu, -⟩
  · obtain rfl := Host.Outcome.next.inj (h.symm.trans he)
    exact ⟨rfl, rfl⟩
  · obtain rfl := Host.Outcome.next.inj (h.symm.trans hu)
    exact ⟨rfl, rfl⟩

/-- Waiting for a command in flight, the completion after the first n polls: n + 2 steps, which leave what the command
leaves (30_encoding.md R121). -/
theorem run_poll {b : Bus} (n : Nat) (hb : s.status.busy = true) (hcmd : decode s.cmd = .ok i)
    (hexec : exec i { s with bus := b } = .next t) (hp : s.bus.pending = poll n ++ ms) :
    Sys2Proof.core.run (n + 2) s = .next { t with bus := ⟨ms, t.status.word, s.bus.draws⟩ } := by
  obtain ⟨v, hpolls⟩ := run_statusReads (ms := .core :: .read (WordAddr.ofOffset 0x0004) :: ms) n 2
    (by simpa [poll, br] using hp)
  have hturn : step { s with bus := ⟨.core :: .read (WordAddr.ofOffset 0x0004) :: ms, v, s.bus.draws⟩ } =
      .next { t with bus := ⟨.read (WordAddr.ofOffset 0x0004) :: ms, v, s.bus.draws⟩ } :=
    step_completion (b := b) hb hcmd hexec rfl
  have hlast : step { t with bus := ⟨.read (WordAddr.ofOffset 0x0004) :: ms, v, s.bus.draws⟩ } =
      .next { t with bus := ⟨ms, t.status.word, s.bus.draws⟩ } := step_statusRead rfl
  rw [hpolls, run_succ 1 hturn, run_succ 0 hlast]
  rfl

end CommandLine

/-- Settles O28: the issue takes one step, and the polls and the completion leave what the command leaves. -/
theorem commandLineRunsTheCommand : Obligations.CommandLineRunsTheCommand := by
  intro s i n rest hwf hb hp
  obtain ⟨t, ht⟩ := exec_next i (s.issue (encode i))
  obtain ⟨hbusy, hdone⟩ := exec_done ht
  have hissue : step s = .next ((s.issue (encode i)).withPending (poll n ++ rest)) := step_issue hb hp
  refine ⟨t, ht, hbusy, hdone, ?_⟩
  rw [run_succ (n + 2) hissue]
  exact run_poll (b := s.bus) n rfl (decode_encode hwf) ht rfl

end Sys2Proof.Machine

/-! # The command cycle

An issued command waits for the core's turn while the host goes on with its transactions, and then completes
(40_command_cycle.md R140 to R149). One lemma for each transaction of the BUSY interval, one for what a step leaves of
the moves to come; the statements are put together from them. -/

namespace Sys2Proof.Machine

section Cycle

variable {s t : State} {a : WordAddr} {v : Word} {m : Move} {ms : List Move}

/-! ## Host transactions with a command in flight -/

/-- A write to any offset but CTRL only sets WBUSY (40_command_cycle.md R144). -/
theorem step_droppedWrite (hb : s.status.busy = true) (hp : s.bus.pending = .write a v :: ms) (ha : a.offset ≠ 0x0008) :
    step s = .next (s.dropWrite.withPending ms) := by
  have hwrite : (s.withPending ms).hostWrite a v = (s.withPending ms).dropWrite :=
    if_pos ⟨hb, mt locate_eq_ctrl.mp ha⟩
  rw [step_move hp, perform, hwrite]
  rfl

/-- A write to CTRL is performed, whatever BUSY is (40_command_cycle.md R144, 70_reset_and_hazards.md R270). -/
theorem step_ctrlWrite (hp : s.bus.pending = .write a v :: ms) (ha : a.offset = 0x0008) :
    step s = .next ((if v.getLsbD 0 then s.clear else s).withPending ms) := by
  have hwrite : (s.withPending ms).hostWrite a v = (s.withPending ms).accept v .ctrl := by
    rw [State.hostWrite, locate_ctrl ha, if_neg (by simp)]
  rw [step_move hp, perform, hwrite, State.accept_withPending]
  rfl

/-- A read changes only the bus's own fields, and of CMD and STATUS it returns the value (40_command_cycle.md R145). -/
theorem step_read (hp : s.bus.pending = .read a :: ms) :
    ∃ (v : Word) (n : Nat), step s = .next { s with bus := ⟨ms, v, n⟩ } ∧
      (locate a = .cmd ∨ locate a = .status → v = s.valueAt (locate a)) := by
  rw [step_move hp, perform, State.hostRead]
  split
  case isTrue => exact ⟨_, _, rfl, fun _ => rfl⟩
  case isFalse hfree => exact ⟨_, _, rfl, fun hloc => absurd (.inr hloc) hfree⟩

/-- `s` after transactions of a BUSY interval that leave the bus as `b`: `wrote` says whether one was a write. -/
def State.afterHost (s : State) (wrote : Bool) (b : Bus) : State :=
  { s with status := { s.status with wbusy := s.status.wbusy || wrote }, bus := b }

theorem State.afterHost_of_reads (s : State) (b : Bus) : s.afterHost false b = { s with bus := b } := by
  rw [State.afterHost, Bool.or_false]

theorem State.afterHost_of_write (s : State) (b : Bus) : s.afterHost true b = { s.dropWrite with bus := b } := by
  rw [State.afterHost, Bool.or_true]
  rfl

theorem State.afterHost_afterHost (s : State) (x y : Bool) (b c : Bus) :
    (s.afterHost x b).afterHost y c = s.afterHost (x || y) c := by
  simp only [State.afterHost, Bool.or_assoc]

/-- One transaction of a BUSY interval: WBUSY records a write, and nothing else of the core changes. -/
theorem step_harmless (hb : s.status.busy = true) (hm : m.harmless = true) (hp : s.bus.pending = m :: ms) :
    ∃ (v : Word) (n : Nat), step s = .next (s.afterHost m.isWrite ⟨ms, v, n⟩) := by
  cases m with
  | read a =>
    obtain ⟨v, n, hs, -⟩ := step_read hp
    exact ⟨v, n, by rw [hs, Move.isWrite, State.afterHost_of_reads]⟩
  | write a v =>
    have ha : a.offset ≠ 0x0008 := by simpa [Move.harmless] using hm
    refine ⟨s.bus.rdata, s.bus.draws, ?_⟩
    rw [step_droppedWrite hb hp ha, Move.isWrite, State.afterHost_of_write]
    rfl
  | core | powerOn => cases hm

/-! ## To the end of a run -/

/-- Every step uses up the first move, if there is one. -/
theorem step_pending (hst : step s = .next t) : t.bus.pending = s.bus.pending.tail := by
  have turn {ms : List Move} (h : s.bus.pending = [] ∧ ms = [] ∨ s.bus.pending = .core :: ms) :
      ms = s.bus.pending.tail := by
    obtain ⟨hp, rfl⟩ | hp := h <;> rw [hp] <;> rfl
  rcases step_cases s with
    ⟨ms, hturn, ⟨-, hs⟩ | ⟨-, e, hs⟩ | ⟨-, i, u, -, hs, hu⟩⟩ | ⟨a, ms, hp, hs⟩ | ⟨a, v, ms, hp, hs⟩ | ⟨ms, hp, hs⟩ <;>
    obtain rfl := Host.Outcome.next.inj (hst.symm.trans hs)
  case inl.inl => exact turn hturn
  case inl.inr.inl => exact turn hturn
  case inl.inr.inr =>
    obtain ⟨-, -, -, -, -, hbus, -⟩ := hu.untouched
    exact (congrArg Bus.pending hbus).trans (turn hturn)
  case inr.inl => rw [hp]; exact (hostRead_frame (s.withPending ms) a).2
  case inr.inr.inl => rw [hp, hostWrite_bus]; rfl
  case inr.inr.inr => rw [hp]; rfl

/-- Every completion clears BUSY. -/
theorem completion_idle (h : completion s = .next t) : t.status.busy = false := by
  rcases completion_cases s with ⟨e, he⟩ | ⟨i, u, -, he, -⟩ <;> obtain rfl := Host.Outcome.next.inj (h.symm.trans he)
  · rfl
  · rfl

/-- With no move to come, the core's turn leaves no command in flight (40_command_cycle.md R143). -/
theorem idle_of_lastStep (hp : s.bus.pending = []) (hst : step s = .next t) : t.status.busy = false := by
  cases hb : s.status.busy with
  | false =>
    obtain rfl := Host.Outcome.next.inj ((step_idle hp hb).symm.trans hst)
    exact hb
  | true => exact completion_idle ((step_turn hp hb).symm.trans hst)

/-- A run finishes one step after its last move. -/
theorem run_finished (ms : List Move) (hp : s.bus.pending = ms) :
    ∃ t, Sys2Proof.core.run (ms.length + 1) s = .next t ∧ t.finished := by
  induction ms generalizing s with
  | nil =>
    obtain ⟨t, ht⟩ := step_next s
    have hrest : t.bus.pending = [] := by rw [step_pending ht, hp, List.tail_nil]
    exact ⟨t, run_succ 0 ht, hrest, idle_of_lastStep hp ht⟩
  | cons m ms ih =>
    obtain ⟨u, hu⟩ := step_next s
    have hrest : u.bus.pending = ms := by rw [step_pending hu, hp, List.tail_cons]
    obtain ⟨t, ht, hfinished⟩ := ih hrest
    exact ⟨t, (run_succ _ hu).trans ht, hfinished⟩

/-! ## What NOP, CZERO and CPUT write -/

/-- The store commands have no effect but on the coefficients. -/
theorem Effects.store {i : Instr} {u : State} {rs1 rs2 : Reg} (hi : i = .nop ∨ i = .czero ∨ i = .cput rs1 rs2)
    (hu : Effects i s u) : ∃ coef, u = { s with coef := coef } := by
  obtain rfl | rfl | rfl := hi
  · exact ⟨s.coef, hu⟩
  · exact ⟨_, hu⟩
  · obtain ⟨j, a, -, -, rfl⟩ := hu
    exact ⟨_, rfl⟩

theorem coefIndex_eq_some {j : Fin 256} (h : coefIndex v = some j) : j.val = v.toNat := by
  simp only [coefIndex] at h
  split at h
  · cases h
    rfl
  · cases h

end Cycle

/-! ## The statements -/

/-- Settles O13: every step uses up a move, and with none left the core's turn clears BUSY. -/
theorem everyRunFinishes : Obligations.EveryRunFinishes := by
  intro s
  obtain ⟨t, hrun, hfinished⟩ := run_finished s.bus.pending rfl
  exact ⟨t, hrun, hfinished, step_idle hfinished.1 hfinished.2⟩

/-- Settles O29, by induction on the transactions of the interval. -/
theorem busyIntervalChangesOnlyWbusy : Obligations.BusyIntervalChangesOnlyWbusy := by
  intro ms rest s hb hm hp
  change ∃ v n, Sys2Proof.core.run ms.length s = .next (s.afterHost (ms.any Move.isWrite) ⟨rest, v, n⟩)
  induction ms generalizing s with
  | nil =>
    obtain rfl : s.bus.pending = rest := hp
    exact ⟨s.bus.rdata, s.bus.draws, congrArg _ (s.afterHost_of_reads s.bus).symm⟩
  | cons m ms ih =>
    obtain ⟨hm, hms⟩ := List.forall_mem_cons.mp hm
    obtain ⟨v, n, hs⟩ := step_harmless hb hm hp
    obtain ⟨v', n', hrun⟩ := ih (s.afterHost m.isWrite ⟨ms ++ rest, v, n⟩) hb hms rfl
    rw [State.afterHost_afterHost] at hrun
    exact ⟨v', n', (run_succ ms.length hs).trans hrun⟩

/-- Settles O30: a success leaves ERR as it was, so the completion is a failure, which writes only STATUS. -/
theorem failureWritesNothingElse : Obligations.FailureWritesNothingElse := by
  intro i s t herr ht hterr
  rcases exec_cases i s with ⟨e, he⟩ | ⟨u, he, hu⟩ <;> obtain rfl := Host.Outcome.next.inj (ht.symm.trans he)
  · obtain ⟨hlo, hhi⟩ := e.code_bounds
    exact ⟨e.code, hlo, hhi, rfl⟩
  · obtain ⟨-, -, -, -, -, -, -, -, hkept, -⟩ := hu.untouched
    have : u.status.err = true := hterr
    simp [hkept, herr] at this

/-- Settles O49: a failure writes only STATUS, and a success of these commands only coefficients besides. -/
theorem storeCommandsFrame : Obligations.StoreCommandsFrame := by
  intro rs1 rs2 i s t hi ht
  rcases exec_cases i s with ⟨e, he⟩ | ⟨u, he, hu⟩ <;> obtain rfl := Host.Outcome.next.inj (ht.symm.trans he)
  · exact ⟨fun _ => rfl, fun _ => rfl, fun _ => rfl, fun _ _ => rfl, fun _ _ _ => rfl,
      rfl, rfl, rfl, rfl, rfl, rfl, rfl, rfl, rfl, rfl, rfl, rfl⟩
  · have hnop (h : i = .nop) (j : Fin 256) : u.readCoef j = s.readCoef j := by
      subst h
      exact congrArg (State.readCoef · j) hu
    have hcput (h : i = .cput rs1 rs2) (j : Fin 256) (hj : j.val ≠ s.fval rs2) : u.readCoef j = s.readCoef j := by
      subst h
      obtain ⟨j', a, hj', -, rfl⟩ := hu
      have hne : j ≠ j' := fun h => hj (h ▸ coefIndex_eq_some hj')
      exact s.readCoef_writeCoef_other _ hne
    obtain ⟨coef, rfl⟩ := hu.store hi
    exact ⟨fun _ => rfl, fun _ => rfl, fun _ => rfl, hnop, hcput,
      rfl, rfl, rfl, rfl, rfl, rfl, rfl, rfl, rfl, rfl, rfl, rfl⟩

/-- Settles O14: in both forms of the turn the completion decodes CMD, which the used-up turn leaves alone. -/
theorem stepRunsTheDecodedCommand : Obligations.StepRunsTheDecodedCommand := by
  intro s i hb hi
  refine ⟨fun hp => ?_, fun ms hp => ?_⟩
  · rw [step_turn hp hb, completion_of_decode hi]
  · calc step s
      _ = coreTurn (s.withPending ms) := step_coreTurn (.inr hp)
      _ = completion (s.withPending ms) := if_pos hb
      _ = exec i (s.withPending ms) := completion_of_decode hi

/-- Settles O17: the write is accepted as the issue of its word. -/
theorem writeToCmdIssues : Obligations.WriteToCmdIssues := fun _ _ _ hb hp => step_issue hb hp

/-- Settles O18: CTRL is the one offset whose writes are performed. -/
theorem writeWhileBusyIsDropped : Obligations.WriteWhileBusyIsDropped := by
  intro s a v ms hb hp
  refine ⟨fun ha => step_droppedWrite hb hp ha, fun ha hv => ?_, fun ha hv => ?_⟩
  · rw [step_ctrlWrite hp ha, if_pos hv]
    rfl
  · rw [step_ctrlWrite hp ha, if_neg (Bool.not_eq_true _ ▸ hv)]
    rfl

/-- Settles O21: CMD and STATUS are the two locations whose value a busy core returns. -/
theorem readWhileBusyChangesNothing : Obligations.ReadWhileBusyChangesNothing := by
  intro s a ms _ hp
  obtain ⟨v, n, hs, hv⟩ := step_read hp
  refine ⟨v, n, hs, fun ha => ?_, fun ha => ?_⟩
  · rw [hv (.inl (locate_cmd ha)), locate_cmd ha]
    rfl
  · rw [hv (.inr (locate_status ha)), locate_status ha]
    rfl

/-- Settles O33: the word of NOP is 0, and a word that decodes is its command's only word (O4). -/
theorem nopCompletes : Obligations.NopCompletes := by
  have hword : encode .nop = 0x00000000 := by decide
  refine ⟨fun w => ⟨fun h => ?_, fun h => ?_⟩, complete_eq⟩
  · obtain ⟨-, hw⟩ := encode_of_decode h
    exact hw.symm.trans hword
  · rw [h, ← hword]
    exact decode_encode rfl

end Sys2Proof.Machine

/-! # The modular inverse

FINV answers as `inverse` does on the number in its source register (41_modular_inverse.md R170): one lemma per answer.
R171 then rests on what `inverse` computes. -/

namespace Sys2Proof.Machine

section Inverse

variable {s : State} {rs1 : Reg}

/-- The check of the source register comes first. -/
theorem exec_finv_of_ge (rd : Reg) (h : Config.p ≤ s.fval rs1) : exec (.finv rd rs1) s = .next (s.failedWith 3) := by
  rw [exec, execFinv, fieldElement_of_ge (show Config.p ≤ (s.readF rs1).toNat from h)]
  rfl

theorem exec_finv_of_inverse_none (rd : Reg) (h : s.fval rs1 < Config.p) (hinv : inverse (s.fval rs1) = none) :
    exec (.finv rd rs1) s = .next (s.failedWith 4) := by
  have hx : inverse (s.readF rs1).toNat = none := hinv
  simp only [exec, execFinv, fieldElement_of_lt (show (s.readF rs1).toNat < Config.p from h), hx]
  rfl

theorem exec_finv_of_inverse_some (rd : Reg) {x : Nat} (h : s.fval rs1 < Config.p)
    (hinv : inverse (s.fval rs1) = some x) : exec (.finv rd rs1) s = .next (s.withF rd x).succeeded := by
  have hx : inverse (s.readF rs1).toNat = some x := hinv
  simp only [exec, execFinv, fieldElement_of_lt (show (s.readF rs1).toNat < Config.p from h), hx]
  rfl

end Inverse

/-- Settles O34: the encoding is row 1 of the opcode map; p is prime, so that every number in [1, p) has an inverse, and
it has only one. -/
theorem finvGivesTheInverse : Obligations.FinvGivesTheInverse := by
  refine ⟨fun w => (masked_iff_decode (r := opcodeMap[1]) (List.getElem_mem _) w).mp, fun rd rs1 s =>
    ⟨exec_finv_of_ge rd, fun hzero => ?_, fun hpos hlt => ?_⟩⟩
  · have hlt : s.fval rs1 < Config.p := hzero ▸ p_prime.pos
    exact exec_finv_of_inverse_none rd hlt (hzero ▸ inverse_zero)
  · obtain ⟨x, hinv, hxpos, hxlt, hx⟩ := inverse_spec hpos hlt
    exact ⟨x, hxpos, hxlt, hx, fun y hylt hy => inverse_unique hylt hxlt hy hx, exec_finv_of_inverse_some rd hlt hinv⟩

end Sys2Proof.Machine

/-! # The bit reader

RDBITS answers in one of five ways (42_bit_reader.md R182): one lemma per answer. A sequence of reads is then followed
group by group, each new one after the groups already read (R183, R184). -/

namespace Sys2Proof.Machine

section Reader

variable {s : State} {k : Nat}

/-! ## The answers of RDBITS -/

theorem exec_rdbits_of_illegal (rd : Reg) (hk : k = 0 ∨ 32 < k) :
    exec (.rdbits rd k) s = .next (s.failedWith 2) :=
  if_pos (legalWidth_false_iff.mpr hk)

theorem exec_rdbits_of_tooLong (rd : Reg) (hk : 1 ≤ k ∧ k ≤ 32) (hlen : 4096 < s.rdLen.toNat) :
    exec (.rdbits rd k) s = .next (s.failedWith 2) := by
  rw [exec, execRdbits, if_neg (by simp [legalWidth_iff.mpr hk]), if_pos (c := s.rdLen.toNat > Config.bufBytes) hlen]
  rfl

/-- With a legal width and a legal length no check of RDBITS fails. -/
theorem rdbits_checks_pass (hk : 1 ≤ k ∧ k ≤ 32) (hlen : s.rdLen.toNat ≤ 4096) :
    ¬ legalWidth k = false ∧ ¬ s.rdLen.toNat > Config.bufBytes :=
  ⟨by simp [legalWidth_iff.mpr hk], hlen.not_gt⟩

/-- `None` at the end of the sequence. -/
theorem exec_rdbits_of_eos (rd : Reg) (hk : 1 ≤ k ∧ k ≤ 32) (hlen : s.rdLen.toNat ≤ 4096)
    (heos : s.status.eos = true) : exec (.rdbits rd k) s = .next s.setNone.succeeded := by
  obtain ⟨hwidth, hbytes⟩ := rdbits_checks_pass hk hlen
  rw [exec, execRdbits, if_neg hwidth, if_neg hbytes, if_pos heos]
  rfl

/-- A group of real bits. -/
theorem exec_rdbits_of_fits (rd : Reg) (hk : 1 ≤ k ∧ k ≤ 32) (hlen : s.rdLen.toNat ≤ 4096)
    (heos : s.status.eos = false) (hfits : s.rdPos.toNat + k ≤ 8 * s.rdLen.toNat) :
    exec (.rdbits rd k) s = .next
      ((s.writeF rd (wordOf (s.rdbuf.readBits s.rdPos.toNat k))).setRdPos (s.rdPos.toNat + k)).succeeded := by
  have hreal : k ≤ s.realLeft := Nat.le_sub_of_add_le' hfits
  obtain ⟨hwidth, hbytes⟩ := rdbits_checks_pass hk hlen
  rw [exec, execRdbits, if_neg hwidth, if_neg hbytes, if_neg (by simp [heos]), if_pos hreal]
  rfl

/-- The group with the padding: the R real bits that are left, a 1, and zeros. -/
theorem exec_rdbits_of_padding (rd : Reg) (hk : 1 ≤ k ∧ k ≤ 32) (hlen : s.rdLen.toNat ≤ 4096)
    (heos : s.status.eos = false) {R : Nat} (hR : s.rdPos.toNat + R = 8 * s.rdLen.toNat) (hRk : R < k) :
    exec (.rdbits rd k) s = .next
      ((s.writeF rd (wordOf (paddingGroup (s.rdbuf.readBits s.rdPos.toNat R) R k))).setRdPos
        (8 * s.rdLen.toNat)).setEos.succeeded := by
  have hleft : s.realLeft = R := Nat.sub_eq_of_eq_add' hR.symm
  obtain ⟨hwidth, hbytes⟩ := rdbits_checks_pass hk hlen
  rw [exec, execRdbits, if_neg hwidth, if_neg hbytes, if_neg (by simp [heos]), if_neg (by omega), hleft, hR]
  rfl

end Reader

/-! ## Statements about one RDBITS -/

/-- RDBITS writes at most F[rd], RD_POS, EOS and NONE, and neither of the first two where it newly sets NONE. -/
theorem Effects.rdbits_frame {s u : State} {rd : Reg} {k : Nat} (h : Effects (.rdbits rd k) s u) :
    ∃ f pos eos none, u = { s with f := f, rdPos := pos, status := { s.status with eos := eos, none := none } } ∧
      (∀ q, q ≠ rd → u.readF q = s.readF q) ∧
      (u.status.none = true → s.status.none = false → u.readF rd = s.readF rd ∧ u.rdPos = s.rdPos) := by
  obtain ⟨-, -, ⟨-, rfl⟩ | ⟨-, -, rfl⟩ | ⟨-, -, rfl⟩⟩ := h
  · exact ⟨_, _, _, _, rfl, fun _ _ => rfl, fun _ _ => ⟨rfl, rfl⟩⟩
  · exact ⟨_, _, _, _, rfl, fun _ hq => s.readF_writeF_other _ hq, fun h1 h0 => absurd h1 (by simp [h0])⟩
  · exact ⟨_, _, _, _, rfl, fun _ hq => s.readF_writeF_other _ hq, fun h1 h0 => absurd h1 (by simp [h0])⟩

/-- Settles O47: a failure writes only STATUS, and a success no more than the effects of RDBITS. -/
theorem readerFrame : Obligations.ReaderFrame := by
  intro rd k s t ht
  rcases exec_cases (.rdbits rd k) s with ⟨e, he⟩ | ⟨u, he, hu⟩ <;>
    obtain rfl := Host.Outcome.next.inj (ht.symm.trans he)
  · exact ⟨fun _ _ => rfl, fun _ => rfl, fun _ => rfl, fun _ => rfl, rfl, rfl, rfl, rfl, rfl, rfl, rfl, rfl, rfl,
      fun _ _ => ⟨rfl, rfl⟩⟩
  · obtain ⟨f, pos, eos, none, rfl, hother, hnone⟩ := hu.rdbits_frame
    exact ⟨hother, fun _ => rfl, fun _ => rfl, fun _ => rfl, rfl, rfl, rfl, rfl, rfl, rfl, rfl, rfl, rfl, hnone⟩

/-- Settles O39, answer by answer: the model's group is the sum of R182, and the padding group is its real bits, a 1, and
zeros. -/
theorem rdbitsReadsThePaddedStream : Obligations.RdbitsReadsThePaddedStream := by
  refine ⟨fun w => (masked_iff_decode (r := opcodeMap[2]) (List.getElem_mem _) w).mp, fun rd k s =>
    ⟨exec_rdbits_of_illegal rd, fun h1 h32 => exec_rdbits_of_tooLong rd ⟨h1, h32⟩,
      fun h1 h32 hlen heos => exec_rdbits_of_eos rd ⟨h1, h32⟩ hlen heos, fun h1 h32 hlen heos hfits => ?_,
      fun h1 h32 hlen heos R hR hRk => ?_⟩⟩
  · rw [Memory.streamBits_eq]
    exact ⟨exec_rdbits_of_fits rd ⟨h1, h32⟩ hlen heos hfits, by omega, s.rdbuf.readBits_lt _ _⟩
  · rw [Memory.streamBits_eq, ← paddingGroup_eq hRk]
    exact ⟨exec_rdbits_of_padding rd ⟨h1, h32⟩ hlen heos hR hRk, paddingGroup_lt hRk (s.rdbuf.readBits_lt _ _)⟩

/-- Settles O22: the write is accepted at RD_LEN, which has 13 bits. -/
theorem writeToRdLenRestartsTheReader : Obligations.WriteToRdLenRestartsTheReader := by
  intro s v ms hb hp
  have hlow : BitVec.ofNat 13 (v.toNat % 8192) = v.setWidth 13 := BitVec.eq_of_toNat_eq (by simp)
  rw [step_idleWrite hb hp, locate_rdLen (WordAddr.offset_ofOffset (by decide) (by decide)), hlow]
  rfl

end Sys2Proof.Machine

/-! # The groups of a sequence

What one more RDBITS leaves (42_bit_reader.md R182), and from it what the groups of a whole sequence are (R183, R184). The
sequence is followed from its start, each group after the ones already read. -/

namespace Sys2Proof.Machine

/-- `s` stands at bit `pos` of the `len` bytes of `m`, its padding group still to come. -/
structure State.Reading (s : State) (m : Memory) (len pos : Nat) : Prop where
  rdbuf : s.rdbuf = m
  rdLen : s.rdLen.toNat = len
  rdPos : s.rdPos.toNat = pos
  eos : s.status.eos = false

/-- The start of a sequence, as a write to RD_LEN leaves it (R180). -/
theorem State.reading_of_start {s : State} (hpos : s.rdPos = 0) (heos : s.status.eos = false) :
    s.Reading s.rdbuf s.rdLen.toNat 0 :=
  ⟨rfl, rfl, by rw [hpos]; rfl, heos⟩

/-! ## One group -/

theorem State.after_of_exec {s t : State} {i : Instr} (h : exec i (s.issue (encode i)) = .next t) : s.after i = t := by
  rw [State.after, h]
  rfl

theorem State.after_rdLen (s : State) (i : Instr) : (s.after i).rdLen = s.rdLen := by
  obtain ⟨t, ht⟩ := exec_next i (s.issue (encode i))
  obtain ⟨-, -, hlen, -⟩ := commandsNeverWriteTheirConfiguration i _ t ht
  rw [State.after_of_exec ht]
  exact hlen

section OneGroup

variable {s : State} {m : Memory} {len pos k : Nat}

/-- After the padding group every RDBITS is `None`: it sets NONE, and only STATUS and CMD differ. -/
theorem State.after_rdbits_of_eos (rd : Reg) (hk : 1 ≤ k ∧ k ≤ 32) (hlen : s.rdLen.toNat ≤ 4096)
    (heos : s.status.eos = true) :
    s.after (.rdbits rd k) = (s.issue (encode (.rdbits rd k))).setNone.succeeded :=
  State.after_of_exec (exec_rdbits_of_eos rd hk hlen heos)

/-- A group that lies within the real data. -/
theorem State.Reading.after_fits (h : s.Reading m len pos) (hlen : len ≤ 4096) (hk : 1 ≤ k ∧ k ≤ 32) (rd : Reg)
    (hfits : pos + k ≤ 8 * len) :
    (s.after (.rdbits rd k)).Reading m len (pos + k) ∧ (s.after (.rdbits rd k)).status.err = false ∧
      (s.after (.rdbits rd k)).status.none = false ∧
      ((s.after (.rdbits rd k)).readF rd).toNat = m.readBits pos k := by
  obtain ⟨rfl, rfl, rfl, heos⟩ := h
  have hword : s.rdbuf.readBits s.rdPos.toNat k < 2 ^ 32 :=
    (s.rdbuf.readBits_lt _ _).trans_le (Nat.pow_le_pow_right two_pos hk.2)
  have hpos : (BitVec.ofNat 16 (s.rdPos.toNat + k)).toNat = s.rdPos.toNat + k :=
    Nat.mod_eq_of_lt (show s.rdPos.toNat + k < 2 ^ 16 by omega)
  rw [State.after_of_exec (exec_rdbits_of_fits rd hk hlen heos hfits)]
  exact ⟨⟨rfl, rfl, hpos, heos⟩, rfl, rfl, (congrArg _ (State.readF_writeF_same s rd _)).trans (wordOf_toNat hword)⟩

/-- The group that reads past the end: the R real bits that are left, a 1, and zeros. -/
theorem State.Reading.after_padding (h : s.Reading m len pos) (hlen : len ≤ 4096) (hk : 1 ≤ k ∧ k ≤ 32) (rd : Reg)
    {R : Nat} (hR : pos + R = 8 * len) (hRk : R < k) :
    (s.after (.rdbits rd k)).status.eos = true ∧ (s.after (.rdbits rd k)).status.err = false ∧
      (s.after (.rdbits rd k)).status.none = false ∧
      ((s.after (.rdbits rd k)).readF rd).toNat = paddingGroup (m.readBits pos R) R k := by
  obtain ⟨rfl, rfl, rfl, heos⟩ := h
  have hword : paddingGroup (s.rdbuf.readBits s.rdPos.toNat R) R k < 2 ^ 32 :=
    (paddingGroup_lt hRk (s.rdbuf.readBits_lt _ _)).trans_le (Nat.pow_le_pow_right two_pos hk.2)
  rw [State.after_of_exec (exec_rdbits_of_padding (s := s.issue _) rd hk hlen heos hR hRk)]
  exact ⟨rfl, rfl, rfl, (congrArg _ (State.readF_writeF_same s rd _)).trans (wordOf_toNat hword)⟩

/-- Any group before `None`: it succeeds, and it is below 2 to its width. -/
theorem State.Reading.after_group (h : s.Reading m len pos) (hlen : len ≤ 4096) (hk : 1 ≤ k ∧ k ≤ 32) (rd : Reg)
    (hpos : pos ≤ 8 * len) :
    (s.after (.rdbits rd k)).status.err = false ∧ (s.after (.rdbits rd k)).status.none = false ∧
      ((s.after (.rdbits rd k)).readF rd).toNat < 2 ^ k := by
  by_cases hfits : pos + k ≤ 8 * len
  · obtain ⟨-, herr, hnone, hval⟩ := h.after_fits hlen hk rd hfits
    exact ⟨herr, hnone, hval ▸ m.readBits_lt pos k⟩
  · obtain ⟨R, hR⟩ := Nat.exists_eq_add_of_le hpos
    have hRk : R < k := by omega
    obtain ⟨-, herr, hnone, hval⟩ := h.after_padding hlen hk rd hR.symm hRk
    exact ⟨herr, hnone, hval ▸ paddingGroup_lt hRk (m.readBits_lt pos R)⟩

end OneGroup

/-! ## The list of groups -/

/-- The last group of a list is the one that an RDBITS after the others gives. -/
theorem State.readGroups_concat (s : State) (rd : Reg) (ks : List Nat) (k : Nat) :
    s.readGroups rd (ks ++ [k]) =
      ((s.readGroups rd ks).1 ++ [(k, ((s.readGroups rd ks).2.after (.rdbits rd k)).readF rd)],
        (s.readGroups rd ks).2.after (.rdbits rd k)) := by
  induction ks generalizing s with
  | nil => rfl
  | cons x xs ih => simp only [List.cons_append, State.readGroups, ih]

theorem State.readGroups_widths (s : State) (rd : Reg) (ks : List Nat) :
    (s.readGroups rd ks).1.map Prod.fst = ks := by
  induction ks generalizing s with
  | nil => rfl
  | cons k ks ih => simp only [State.readGroups, List.map_cons, ih]

theorem State.readGroups_rdLen (s : State) (rd : Reg) (ks : List Nat) :
    (s.readGroups rd ks).2.rdLen = s.rdLen := by
  induction ks generalizing s with
  | nil => rfl
  | cons k ks ih => rw [State.readGroups, ih, State.after_rdLen]

theorem joinGroups_concat (gs : List (Nat × Word)) (g : Nat × Word) :
    joinGroups (gs ++ [g]) = joinGroups gs * 2 ^ g.1 + g.2.toNat := by
  rw [joinGroups, List.foldl_concat, joinGroups]

section Sequence

variable {s : State} {m : Memory} {len k : Nat} {ks : List Nat}

/-- Groups that fit in the real data join to its first bits. -/
theorem State.Reading.readGroups_fit (h : s.Reading m len 0) (hlen : len ≤ 4096) (rd : Reg)
    (hks : ∀ x ∈ ks, 1 ≤ x ∧ x ≤ 32) (hsum : ks.sum ≤ 8 * len) :
    (s.readGroups rd ks).2.Reading m len ks.sum ∧ joinGroups (s.readGroups rd ks).1 = m.readBits 0 ks.sum ∧
      ∀ g ∈ (s.readGroups rd ks).1, g.2.toNat < 2 ^ g.1 := by
  induction ks using List.reverseRecOn with
  | nil => exact ⟨h, rfl, by simp [State.readGroups]⟩
  | append_singleton ks k ih =>
    obtain ⟨hks, hk⟩ := List.forall_mem_append.mp hks
    rw [List.sum_append, List.sum_singleton] at hsum ⊢
    obtain ⟨hread, hjoin, hlt⟩ := ih hks (by omega)
    obtain ⟨hread', -, -, hval⟩ := hread.after_fits hlen (hk k (by simp)) rd hsum
    rw [State.readGroups_concat, joinGroups_concat, hjoin, hval, Memory.readBits_add, Nat.zero_add]
    refine ⟨hread', rfl, List.forall_mem_append.mpr ⟨hlt, ?_⟩⟩
    simpa [hval] using m.readBits_lt ks.sum k

/-- A group after others that fit succeeds; all of them are below 2 to their widths. -/
theorem State.Reading.readGroups_concat_succeeds (h : s.Reading m len 0) (hlen : len ≤ 4096) (rd : Reg)
    (hks : ∀ x ∈ ks ++ [k], 1 ≤ x ∧ x ≤ 32) (hsum : ks.sum ≤ 8 * len) :
    (s.readGroups rd (ks ++ [k])).2.status.err = false ∧ (s.readGroups rd (ks ++ [k])).2.status.none = false ∧
      ∀ g ∈ (s.readGroups rd (ks ++ [k])).1, g.2.toNat < 2 ^ g.1 := by
  obtain ⟨hks, hk⟩ := List.forall_mem_append.mp hks
  obtain ⟨hread, -, hlt⟩ := h.readGroups_fit hlen rd hks hsum
  obtain ⟨herr, hnone, hval⟩ := hread.after_group hlen (hk k (by simp)) rd hsum
  rw [State.readGroups_concat]
  exact ⟨herr, hnone, List.forall_mem_append.mpr ⟨hlt, by simpa using hval⟩⟩

/-- The first j + 1 of the groups succeed, and the sequence goes on where the last is not among them. -/
theorem State.Reading.readGroups_take (h : s.Reading m len 0) (hlen : len ≤ 4096) (rd : Reg)
    (hks : ∀ x ∈ ks ++ [k], 1 ≤ x ∧ x ≤ 32) (hsum : ks.sum ≤ 8 * len) {j : Nat} (hj : j ≤ ks.length) :
    (s.readGroups rd ((ks ++ [k]).take (j + 1))).2.status.err = false ∧
      (s.readGroups rd ((ks ++ [k]).take (j + 1))).2.status.none = false ∧
      (j < ks.length → (s.readGroups rd ((ks ++ [k]).take (j + 1))).2.status.eos = false) := by
  have htakeSum (i : Nat) : (ks.take i).sum ≤ 8 * len :=
    ((List.take_sublist i ks).sum_le_sum fun _ _ => Nat.zero_le _).trans hsum
  have hlegal : ∀ x ∈ (ks ++ [k]).take (j + 1), 1 ≤ x ∧ x ≤ 32 := fun x hx => hks x (List.mem_of_mem_take hx)
  have hlt : j < (ks ++ [k]).length := by
    rw [List.length_append, List.length_singleton]
    omega
  have hconcat : (ks ++ [k]).take (j + 1) = ks.take j ++ [(ks ++ [k])[j]] := by
    rw [← List.take_append_getElem hlt, List.take_append_of_le_length hj]
  obtain ⟨herr, hnone, -⟩ := h.readGroups_concat_succeeds hlen rd (hconcat ▸ hlegal) (htakeSum j)
  refine ⟨hconcat ▸ herr, hconcat ▸ hnone, fun hmore => ?_⟩
  rw [List.take_append_of_le_length hmore] at hlegal ⊢
  exact (h.readGroups_fit hlen rd hlegal (htakeSum (j + 1))).1.eos

/-- The first group that does not fit ends the sequence: it holds the R real bits that are left, a 1, and zeros, and all
groups join to the real data, a 1, and zeros. -/
theorem State.Reading.readGroups_padding (h : s.Reading m len 0) (hlen : len ≤ 4096) (rd : Reg)
    (hks : ∀ x ∈ ks ++ [k], 1 ≤ x ∧ x ≤ 32) {R : Nat} (hR : ks.sum + R = 8 * len) (hRk : R < k) :
    (s.readGroups rd (ks ++ [k])).2.status.eos = true ∧
      ((s.readGroups rd (ks ++ [k])).2.readF rd).toNat = paddingGroup (m.readBits ks.sum R) R k ∧
      joinGroups (s.readGroups rd (ks ++ [k])).1 = m.readBits 0 (8 * len) * 2 ^ (k - R) + 2 ^ (k - R - 1) := by
  obtain ⟨hks, hk⟩ := List.forall_mem_append.mp hks
  obtain ⟨hread, hjoin, -⟩ := h.readGroups_fit hlen rd hks (by omega)
  obtain ⟨heos, -, -, hval⟩ := hread.after_padding hlen (hk k (by simp)) rd hR hRk
  rw [State.readGroups_concat, joinGroups_concat]
  refine ⟨heos, hval, ?_⟩
  have hpow : 2 ^ k = 2 ^ R * 2 ^ (k - R) := by rw [← Nat.pow_add, Nat.add_sub_cancel' hRk.le]
  rw [hjoin, hval, paddingGroup_eq hRk, ← hR, Memory.readBits_add, Nat.zero_add, hpow]
  ring

/-- Once the padding group has been read, EOS stays set. -/
theorem State.readGroups_concat_of_eos (rd : Reg) (hlen : s.rdLen.toNat ≤ 4096) (hk : 1 ≤ k ∧ k ≤ 32)
    (heos : (s.readGroups rd ks).2.status.eos = true) :
    (s.readGroups rd (ks ++ [k])).2.status.eos = true ∧ (s.readGroups rd (ks ++ [k])).2.status.none = true := by
  rw [State.readGroups_concat, State.after_rdbits_of_eos rd hk (s.readGroups_rdLen rd ks ▸ hlen) heos]
  exact ⟨heos, rfl⟩

end Sequence

/-! ## Chunks of 30 bits -/

section Chunks

variable {s : State} {m : Memory} {len n : Nat}

theorem chunk_widths_legal (n : Nat) : ∀ x ∈ List.replicate n 30, 1 ≤ x ∧ x ≤ 32 := by
  intro x hx
  simp [List.eq_of_mem_replicate hx]

theorem sum_chunk_widths (n : Nat) : (List.replicate n 30).sum = 30 * n := by
  rw [List.sum_replicate, smul_eq_mul, Nat.mul_comm]

theorem sum_chunk_widths_le (hn : n ≤ 8 * len / 30) : (List.replicate n 30).sum ≤ 8 * len := by
  rw [sum_chunk_widths]
  omega

theorem State.chunk_width {rd : Reg} {g : Nat × Word} (hg : g ∈ (s.readGroups rd (List.replicate n 30)).1) :
    g.1 = 30 :=
  List.eq_of_mem_replicate (s.readGroups_widths rd (List.replicate n 30) ▸ List.mem_map_of_mem hg)

/-- The first 8 * len / 30 chunks are real data. -/
theorem State.Reading.chunks_fit (h : s.Reading m len 0) (hlen : len ≤ 4096) (rd : Reg) (hn : n ≤ 8 * len / 30) :
    (s.readGroups rd (List.replicate n 30)).2.Reading m len (30 * n) :=
  sum_chunk_widths n ▸ (h.readGroups_fit hlen rd (chunk_widths_legal n) (sum_chunk_widths_le hn)).1

/-- They and the next one are chunks and not `None`. -/
theorem State.Reading.chunks_succeed (h : s.Reading m len 0) (hlen : len ≤ 4096) (rd : Reg) (hn : n ≤ 8 * len / 30) :
    (s.readGroups rd (List.replicate (n + 1) 30)).2.status.none = false ∧
      ∀ g ∈ (s.readGroups rd (List.replicate (n + 1) 30)).1, g.2.toNat < 2 ^ 30 := by
  have hlegal := chunk_widths_legal (n + 1)
  rw [List.replicate_succ'] at hlegal
  obtain ⟨-, hnone, hlt⟩ := h.readGroups_concat_succeeds hlen rd hlegal (sum_chunk_widths_le hn)
  rw [← List.replicate_succ'] at hnone hlt
  exact ⟨hnone, fun g hg => State.chunk_width hg ▸ hlt g hg⟩

/-- The chunk after them ends the sequence: it holds the rest of the data, a 1, and zeros. -/
theorem State.Reading.chunks_end (h : s.Reading m len 0) (hlen : len ≤ 4096) (rd : Reg) :
    (s.readGroups rd (List.replicate (8 * len / 30 + 1) 30)).2.status.eos = true ∧
      ((s.readGroups rd (List.replicate (8 * len / 30 + 1) 30)).2.readF rd).toNat =
        paddingGroup (m.readBits (30 * (8 * len / 30)) (8 * len % 30)) (8 * len % 30) 30 := by
  have hlegal := chunk_widths_legal (8 * len / 30 + 1)
  have hrest : (List.replicate (8 * len / 30) 30).sum + 8 * len % 30 = 8 * len := by
    rw [sum_chunk_widths, Nat.div_add_mod]
  rw [List.replicate_succ'] at hlegal ⊢
  obtain ⟨hend, hlast, -⟩ := h.readGroups_padding hlen rd hlegal hrest (Nat.mod_lt _ (by decide))
  exact ⟨hend, sum_chunk_widths _ ▸ hlast⟩

/-- From then on EOS stays set. -/
theorem State.Reading.chunks_eos (h : s.Reading m len 0) (hlen : len ≤ 4096) (rd : Reg) (hn : 8 * len / 30 + 1 ≤ n) :
    (s.readGroups rd (List.replicate n 30)).2.status.eos = true := by
  induction n, hn using Nat.le_induction with
  | base => exact (h.chunks_end hlen rd).1
  | succ n _ ih =>
    rw [List.replicate_succ']
    exact (State.readGroups_concat_of_eos rd (h.rdLen ▸ hlen) (by decide) ih).1

/-- The chunk after n others is `None` exactly when these have ended the sequence. -/
theorem State.Reading.chunks_none (h : s.Reading m len 0) (hlen : len ≤ 4096) (rd : Reg) (n : Nat) :
    (s.readGroups rd (List.replicate (n + 1) 30)).2.status.none = true ↔ 8 * len / 30 < n := by
  constructor
  · intro hnone
    by_contra hn
    rw [(h.chunks_succeed hlen rd (not_lt.mp hn)).1] at hnone
    cases hnone
  · intro hn
    rw [List.replicate_succ']
    exact (State.readGroups_concat_of_eos rd (h.rdLen ▸ hlen) (by decide) (h.chunks_eos hlen rd hn)).2

end Chunks

/-! ## The statements -/

/-- Settles O58: the groups before the last fit, and the last is the padding group. -/
theorem groupsAreTheDataAndItsPadding : Obligations.GroupsAreTheDataAndItsPadding := by
  intro s rd ks k hlen hpos heos hks hfit hover
  have h := State.reading_of_start hpos heos
  obtain ⟨R, hR⟩ := Nat.exists_eq_add_of_le hfit
  have hRk : R < k := by omega
  obtain ⟨hend, -, hjoin⟩ := h.readGroups_padding hlen rd hks hR.symm hRk
  obtain ⟨-, -, hlt⟩ := h.readGroups_concat_succeeds hlen rd hks hfit
  have hzeros : ks.sum + k - 8 * s.rdLen.toNat = k - R := by omega
  refine ⟨fun n hn1 hn => ?_, ?_, hlt, fun x hx1 hx32 => ?_⟩
  · obtain ⟨j, rfl⟩ := Nat.exists_eq_add_of_le' hn1
    obtain ⟨herr, hnone, hmore⟩ := h.readGroups_take hlen rd hks hfit (Nat.le_of_succ_le_succ hn)
    refine ⟨herr, hnone, fun heos => ?_, fun hlast => ?_⟩
    · by_contra hne
      rw [hmore (by omega)] at heos
      cases heos
    · rwa [List.take_of_length_le (by simp [hlast])]
  · rw [hjoin, Memory.streamBits_eq, hzeros]
  · rw [State.after_rdbits_of_eos rd ⟨hx1, hx32⟩ (s.readGroups_rdLen rd _ ▸ hlen) hend]
    exact ⟨rfl, rfl, rfl, rfl⟩

/-- Settles O59: 8L / 30 groups of width 30 fit, and the next is the padding group. -/
theorem chunkCountOfASecret : Obligations.ChunkCountOfASecret := by
  intro s rd hlen hpos heos
  have h := State.reading_of_start hpos heos
  refine ⟨fun n hn => (h.chunks_fit hlen rd hn).eos, (h.chunks_end hlen rd).1, fun n hn => ?_, fun g hg => ?_,
    fun hdvd => ?_⟩
  · obtain ⟨j, rfl⟩ := Nat.exists_eq_add_of_le' hn
    rw [h.chunks_none hlen rd j, Nat.add_lt_add_iff_right]
  · have hlt := (h.chunks_succeed hlen rd le_rfl).2 g hg
    exact ⟨hlt, hlt.trans (by decide)⟩
  · obtain ⟨-, hlast⟩ := h.chunks_end hlen rd
    rw [Nat.mod_eq_zero_of_dvd hdvd, Memory.readBits] at hlast
    exact BitVec.eq_of_toNat_eq (hlast.trans (by decide))

end Sys2Proof.Machine

/-! # The bit writer

WRBLK and WRFIN make the same three checks before they look at the block (43_bit_writer.md R192, R193): `writerChecked`
says them once. Then there is one lemma per answer, and one for the stream after a block without its `pad` low bits has
been appended, where WRBLK is the case `pad = 0`. -/

namespace Sys2Proof.Machine

/-! ## Bits of a written block -/

section Block

variable {m : Memory} {pos k j n pad : Nat}

theorem Memory.streamBit_writeBits_inside (v : Nat) (h : m.wf) (hk : pos + k ≤ 8 * Config.bufBytes) (hj : j < k) :
    (m.writeBits pos k v).streamBit (pos + j) = (v >>> (k - 1 - j)) &&& 1 := by
  rw [Memory.streamBit_eq, Memory.bit_writeBits_inside v h hk hj, testBit_toNat]

theorem Memory.streamBit_writeBits_outside (v : Nat) (h : m.wf) (hk : pos + k ≤ 8 * Config.bufBytes)
    (hn : n < pos ∨ pos + k ≤ n) : (m.writeBits pos k v).streamBit n = m.streamBit n := by
  rw [Memory.streamBit_eq, Memory.bit_writeBits_outside v h hk hn, Memory.streamBit_eq]

/-- Below its width a block has the bits of its register, also after its padding has been shifted out. -/
theorem lowBits_shiftRight_and_one (w : Word) (h : pad + n < k) :
    (lowBits k w >>> pad) >>> n &&& 1 = w.toNat >>> (pad + n) &&& 1 := by
  rw [← Nat.shiftRight_add, ← testBit_toNat, ← testBit_toNat, lowBits, Nat.testBit_mod_two_pow]
  simp [h]

theorem lowBits_mod_two_pow (w : Word) (h : pad ≤ k) : lowBits k w % 2 ^ pad = w.toNat % 2 ^ pad :=
  Nat.mod_mod_of_dvd _ (Nat.pow_dvd_pow 2 h)

end Block

section Writer

variable {s : State} {k pad : Nat} {rs1 : Reg} {o : Host.Outcome State Fault Refusal}

/-- The block w without its `pad` low bits, appended: its bits stand from WR_TOTAL on, the first the most significant, and
every other stream bit keeps its value (43_bit_writer.md R191, R196). -/
theorem State.append_block (w : Word) (hpad : pad ≤ k) (hwf : s.wrbuf.wf) (hcap : s.wrCap.toNat ≤ 4096)
    (hfits : s.wrTotal.toNat + (k - pad) ≤ 8 * s.wrCap.toNat) :
    s.wrTotal.toNat + (k - pad) < 2 ^ 16 ∧ (s.append (k - pad) (lowBits k w >>> pad)).wrbuf.wf ∧
      (∀ j < k - pad, (s.append (k - pad) (lowBits k w >>> pad)).wrbuf.streamBit (s.wrTotal.toNat + j) =
        (w.toNat >>> (k - 1 - j)) &&& 1) ∧
      (∀ n, n < s.wrTotal.toNat ∨ s.wrTotal.toNat + (k - pad) ≤ n →
        (s.append (k - pad) (lowBits k w >>> pad)).wrbuf.streamBit n = s.wrbuf.streamBit n) := by
  have hroom : s.wrTotal.toNat + (k - pad) ≤ 8 * Config.bufBytes := hfits.trans (Nat.mul_le_mul_left 8 hcap)
  refine ⟨hroom.trans_lt (by decide), Memory.wf_writeBits _ hwf hroom, fun j hj => ?_,
    fun n hn => Memory.streamBit_writeBits_outside _ hwf hroom hn⟩
  have hplace : k - 1 - j = pad + (k - pad - 1 - j) := by omega
  rw [State.append_wrbuf, Memory.streamBit_writeBits_inside _ hwf hroom hj,
    lowBits_shiftRight_and_one w (by omega), hplace]

/-! ## The checks that WRBLK and WRFIN share -/

/-- The outcome `o` behind the checks of K, WR_CAP and WFIN, in this order (43_bit_writer.md R192, R193). -/
def writerChecked (k : Nat) (s : State) (o : Host.Outcome State Fault Refusal) : Host.Outcome State Fault Refusal :=
  if legalWidth k = false then raise .invalidArgument s
  else if s.wrCap.toNat > Config.bufBytes then raise .invalidArgument s
  else if s.status.wfin then raise .alreadyFinalized s
  else o

theorem writerChecked_of_illegal (hk : k = 0 ∨ 32 < k) : writerChecked k s o = .next (s.failedWith 2) :=
  if_pos (legalWidth_false_iff.mpr hk)

theorem writerChecked_of_tooLong (hk : 1 ≤ k ∧ k ≤ 32) (hcap : 4096 < s.wrCap.toNat) :
    writerChecked k s o = .next (s.failedWith 2) := by
  rw [writerChecked, if_neg (by simp [legalWidth_iff.mpr hk]), if_pos (c := s.wrCap.toNat > Config.bufBytes) hcap]
  rfl

theorem writerChecked_of_legal (hk : 1 ≤ k ∧ k ≤ 32) (hcap : s.wrCap.toNat ≤ 4096) :
    writerChecked k s o = if s.status.wfin then .next (s.failedWith 7) else o := by
  rw [writerChecked, if_neg (by simp [legalWidth_iff.mpr hk]), if_neg (c := s.wrCap.toNat > Config.bufBytes) hcap.not_gt]
  rfl

theorem writerChecked_of_finalized (hk : 1 ≤ k ∧ k ≤ 32) (hcap : s.wrCap.toNat ≤ 4096) (hfin : s.status.wfin = true) :
    writerChecked k s o = .next (s.failedWith 7) := by
  rw [writerChecked_of_legal hk hcap, if_pos hfin]

theorem writerChecked_of_open (hk : 1 ≤ k ∧ k ≤ 32) (hcap : s.wrCap.toNat ≤ 4096) (hfin : s.status.wfin = false) :
    writerChecked k s o = o := by
  rw [writerChecked_of_legal hk hcap, if_neg (by simp [hfin])]

/-! ## The answers of WRBLK -/

/-- WRBLK behind its checks; true by definition, so the lemmas about `writerChecked` apply to WRBLK as they stand. -/
theorem exec_wrblk (rs1 : Reg) (k : Nat) (s : State) :
    exec (.wrblk rs1 k) s = writerChecked k s
      (if s.wrTotal.toNat + k > s.bitCapacity then .next (s.failedWith 6)
        else .next (s.append k (lowBits k (s.readF rs1))).succeeded) := rfl

theorem exec_wrblk_of_overflow (hk : 1 ≤ k ∧ k ≤ 32) (hcap : s.wrCap.toNat ≤ 4096) (hfin : s.status.wfin = false)
    (hover : 8 * s.wrCap.toNat < s.wrTotal.toNat + k) : exec (.wrblk rs1 k) s = .next (s.failedWith 6) := by
  rw [exec_wrblk, writerChecked_of_open hk hcap hfin, if_pos (c := _ > s.bitCapacity) hover]

theorem exec_wrblk_of_fits (hk : 1 ≤ k ∧ k ≤ 32) (hcap : s.wrCap.toNat ≤ 4096) (hfin : s.status.wfin = false)
    (hfits : s.wrTotal.toNat + k ≤ 8 * s.wrCap.toNat) :
    exec (.wrblk rs1 k) s = .next (s.append k (lowBits k (s.readF rs1))).succeeded := by
  rw [exec_wrblk, writerChecked_of_open hk hcap hfin, if_neg (c := _ > s.bitCapacity) hfits.not_gt]

/-! ## The answers of WRFIN -/

/-- WRFIN behind its checks; true by definition, as for WRBLK. -/
theorem exec_wrfin (rd rs1 : Reg) (k : Nat) (s : State) :
    exec (.wrfin rd rs1 k) s = writerChecked k s
      (if lowBits k (s.readF rs1) = 0 then .next (s.failedWith 5)
        else if s.wrTotal.toNat + (k - paddingLength k (lowBits k (s.readF rs1))) > s.bitCapacity then
          .next (s.failedWith 6)
        else .next (s.finalize rd (k - paddingLength k (lowBits k (s.readF rs1)))
          (lowBits k (s.readF rs1) >>> paddingLength k (lowBits k (s.readF rs1)))).succeeded) := rfl

theorem exec_wrfin_of_noPadding (rd : Reg) (hk : 1 ≤ k ∧ k ≤ 32) (hcap : s.wrCap.toNat ≤ 4096)
    (hfin : s.status.wfin = false) (hzero : lowBits k (s.readF rs1) = 0) :
    exec (.wrfin rd rs1 k) s = .next (s.failedWith 5) := by
  rw [exec_wrfin, writerChecked_of_open hk hcap hfin, if_pos hzero]

theorem exec_wrfin_of_overflow (rd : Reg) (hk : 1 ≤ k ∧ k ≤ 32) (hcap : s.wrCap.toNat ≤ 4096)
    (hfin : s.status.wfin = false) (hone : lowBits k (s.readF rs1) ≠ 0)
    (hpad : paddingLength k (lowBits k (s.readF rs1)) = pad)
    (hover : 8 * s.wrCap.toNat < s.wrTotal.toNat + (k - pad)) :
    exec (.wrfin rd rs1 k) s = .next (s.failedWith 6) := by
  rw [exec_wrfin, writerChecked_of_open hk hcap hfin, if_neg hone, hpad, if_pos (c := _ > s.bitCapacity) hover]

theorem exec_wrfin_of_fits (rd : Reg) (hk : 1 ≤ k ∧ k ≤ 32) (hcap : s.wrCap.toNat ≤ 4096)
    (hfin : s.status.wfin = false) (hone : lowBits k (s.readF rs1) ≠ 0)
    (hpad : paddingLength k (lowBits k (s.readF rs1)) = pad)
    (hfits : s.wrTotal.toNat + (k - pad) ≤ 8 * s.wrCap.toNat) :
    exec (.wrfin rd rs1 k) s =
      .next (s.finalize rd (k - pad) (lowBits k (s.readF rs1) >>> pad)).succeeded := by
  rw [exec_wrfin, writerChecked_of_open hk hcap hfin, if_neg hone, hpad,
    if_neg (c := _ > s.bitCapacity) hfits.not_gt]

end Writer

/-! ## Statements about one command -/

/-- Settles O40, answer by answer: the whole block is appended. -/
theorem wrblkAppendsTheLowBits : Obligations.WrblkAppendsTheLowBits := by
  refine ⟨fun w => (masked_iff_decode (r := opcodeMap[3]) (List.getElem_mem _) w).mp, fun rs1 k s =>
    ⟨writerChecked_of_illegal, fun h1 h32 => writerChecked_of_tooLong ⟨h1, h32⟩,
      fun h1 h32 => writerChecked_of_finalized ⟨h1, h32⟩, fun h1 h32 => exec_wrblk_of_overflow ⟨h1, h32⟩,
      fun h1 h32 hcap hfin hfits hwf => ?_⟩⟩
  exact ⟨_, exec_wrblk_of_fits ⟨h1, h32⟩ hcap hfin hfits, State.append_block (pad := 0) _ k.zero_le hwf hcap hfits⟩

/-- Settles O41, answer by answer: the padding length is where the lowest 1 stands, and the block above it is appended. -/
theorem wrfinStripsThePaddingAndFinalizes : Obligations.WrfinStripsThePaddingAndFinalizes := by
  refine ⟨fun w => (masked_iff_decode (r := opcodeMap[4]) (List.getElem_mem _) w).mp, fun rd rs1 k s =>
    ⟨writerChecked_of_illegal, fun h1 h32 => writerChecked_of_tooLong ⟨h1, h32⟩,
      fun h1 h32 => writerChecked_of_finalized ⟨h1, h32⟩,
      fun h1 h32 hcap hfin hzero => exec_wrfin_of_noPadding rd ⟨h1, h32⟩ hcap hfin hzero,
      fun h1 h32 hcap hfin hone => ?_⟩⟩
  obtain ⟨hpad1, hpadk, hlowest⟩ := paddingLength_spec hone (lowBits_lt k (s.readF rs1))
  refine ⟨_, hpad1, hpadk, lowBits_mod_two_pow _ hpadk ▸ hlowest,
    exec_wrfin_of_overflow rd ⟨h1, h32⟩ hcap hfin hone rfl, fun hfits hwf => ?_⟩
  exact ⟨_, exec_wrfin_of_fits rd ⟨h1, h32⟩ hcap hfin hone rfl hfits, State.append_block _ hpadk hwf hcap hfits⟩

/-- WRBLK and WRFIN store m bits from WR_TOTAL on, inside the buffer, and write besides at most F[rd], WR_TOTAL and WFIN,
WRBLK neither the first nor the last. -/
theorem Effects.writer_frame {i : Instr} {s u : State} {rd rs : Reg} {k m : Nat} (h : Effects i s u)
    (hi : (i = .wrblk rs k ∧ m = k) ∨
      (i = .wrfin rd rs k ∧ m = k - paddingLength k (lowBits k (s.readF rs)))) :
    ∃ f v total wfin,
      u = { s with
        f := f
        wrbuf := s.wrbuf.writeBits s.wrTotal.toNat m v
        wrTotal := total
        status := { s.status with wfin := wfin } } ∧
      s.wrTotal.toNat + m ≤ 8 * Config.bufBytes ∧
      (∀ q, (i = .wrblk rs k ∨ q ≠ rd) → u.readF q = s.readF q) ∧
      (i = .wrblk rs k → u.status.wfin = s.status.wfin) := by
  obtain ⟨rfl, rfl⟩ | ⟨rfl, rfl⟩ := hi
  · obtain ⟨-, hcap, -, hfits, rfl⟩ := h
    exact ⟨_, _, _, _, rfl, hfits.trans (Nat.mul_le_mul_left 8 hcap), fun _ _ => rfl, fun _ => rfl⟩
  · obtain ⟨-, hcap, -, -, hfits, rfl⟩ := h
    exact ⟨_, _, _, _, rfl, hfits.trans (Nat.mul_le_mul_left 8 hcap),
      fun _ hq => State.readF_writeF_other _ _ (hq.resolve_left nofun), nofun⟩

/-- Settles O48: a failure writes only STATUS, and a success no byte or bit outside the stored ones. -/
theorem writerFrame : Obligations.WriterFrame := by
  intro rd rs k m i s t hi hwf ht
  rcases exec_cases i s with ⟨e, he⟩ | ⟨u, he, hu⟩ <;> obtain rfl := Host.Outcome.next.inj (ht.symm.trans he)
  · exact ⟨fun _ _ => rfl, fun _ => rfl, fun _ => rfl, fun _ _ => rfl, fun _ _ => rfl,
      rfl, rfl, rfl, rfl, rfl, rfl, rfl, rfl, rfl, rfl, fun _ => rfl⟩
  · obtain ⟨f, v, total, wfin, rfl, hroom, hreg, hwfin⟩ := hu.writer_frame hi
    exact ⟨hreg, fun _ => rfl, fun _ => rfl, fun _ hn => Memory.read_writeBits_outside v hwf hroom hn,
      fun _ hn => Memory.streamBit_writeBits_outside v hwf hroom hn,
      rfl, rfl, rfl, rfl, rfl, rfl, rfl, rfl, rfl, rfl, hwfin⟩

/-- Settles O23: the write is accepted at WR_CAP, which has 13 bits. -/
theorem writeToWrCapRestartsTheWriter : Obligations.WriteToWrCapRestartsTheWriter := by
  intro s v ms hb hp
  have hlow : BitVec.ofNat 13 (v.toNat % 8192) = v.setWidth 13 := BitVec.eq_of_toNat_eq (by simp)
  rw [step_idleWrite hb hp, locate_wrCap (WordAddr.offset_ofOffset (by decide) (by decide)), hlow]
  rfl

end Sys2Proof.Machine

/-! # Writing the groups back

The writer is followed group by group, as the reader was: after the groups that have been written back, the stream of WRBUF
begins with the bits that they were read from (43_bit_writer.md R195). -/

namespace Sys2Proof.Machine

/-- Bit j of a group read is stream bit pos + j (42_bit_reader.md R182). -/
theorem Memory.testBit_readBits {m : Memory} {pos k j : Nat} (hj : j < k) :
    (m.readBits pos k).testBit (k - 1 - j) = m.bit (pos + j) := by
  induction k with
  | zero => omega
  | succ k ih =>
    have hlow := Bool.toNat_lt (m.bit (pos + k))
    rw [Memory.readBits]
    by_cases hjk : j = k
    · subst hjk
      cases m.bit (pos + j) <;> simp [Nat.testBit_zero]
    · have hhalf : (2 * m.readBits pos k + (m.bit (pos + k)).toNat) / 2 = m.readBits pos k := by omega
      rw [show k + 1 - 1 - j = (k - 1 - j) + 1 by omega, Nat.testBit_add_one, hhalf, ih (by omega)]

/-- `u` has written the first `pos` bits of `m` into a buffer of `cap` bytes, and is not finalized. -/
structure State.Writing (u : State) (m : Memory) (cap pos : Nat) : Prop where
  wrbuf_wf : u.wrbuf.wf
  wrCap : u.wrCap.toNat = cap
  wrTotal : u.wrTotal.toNat = pos
  wfin : u.status.wfin = false
  bits : ∀ n < pos, u.wrbuf.bit n = m.bit n

/-- The start of a sequence, as a write to WR_CAP leaves it (R190). -/
theorem State.writing_of_start {u : State} (m : Memory) (hwf : u.wrbuf.wf) (htotal : u.wrTotal = 0)
    (hfin : u.status.wfin = false) : u.Writing m u.wrCap.toNat 0 :=
  ⟨hwf, rfl, by rw [htotal]; rfl, hfin, nofun⟩

/-! ## The groups as the reader gave them -/

section Groups

variable {m : Memory} {k R : Nat} {w : Word}

/-- A group of real bits has no other bits than its own. -/
theorem lowBits_of_readBits {pos : Nat} (hw : w.toNat = m.readBits pos k) : lowBits k w = m.readBits pos k := by
  rw [lowBits, hw, Nat.mod_eq_of_lt (m.readBits_lt pos k)]

/-- The padding that WRFIN finds in a padding group is the one that RDBITS put there, and above it are the real bits. -/
theorem lowBits_of_paddingGroup {real : Nat} (hw : w.toNat = paddingGroup real R k) (hRk : R < k)
    (hreal : real < 2 ^ R) :
    lowBits k w ≠ 0 ∧ paddingLength k (lowBits k w) = k - R ∧ lowBits k w >>> (k - R) = real := by
  have hvalue : lowBits k w = real * 2 ^ (k - R) + 2 ^ (k - R - 1) := by
    rw [lowBits, hw, Nat.mod_eq_of_lt (paddingGroup_lt hRk hreal), paddingGroup_eq hRk]
  have hone : 2 ^ (k - R - 1) < 2 ^ (k - R) := Nat.pow_lt_pow_right one_lt_two (by omega)
  have hlowest : lowBits k w % 2 ^ (k - R - 1 + 1) = 2 ^ (k - R - 1) := by
    rw [hvalue, Nat.sub_add_cancel (by omega), Nat.mul_add_mod_self_right, Nat.mod_eq_of_lt hone]
  have hnonzero : lowBits k w ≠ 0 := by
    have := Nat.two_pow_pos (k - R - 1)
    omega
  refine ⟨hnonzero, ?_, ?_⟩
  · obtain ⟨-, hplace⟩ := trailingZeros_spec hnonzero (lowBits_lt k w)
    rw [paddingLength, eq_of_mod_pow hplace hlowest, Nat.sub_add_cancel (by omega)]
  · rw [hvalue, Nat.shiftRight_eq_div_pow, Nat.add_comm, Nat.add_mul_div_right _ _ (Nat.two_pow_pos _),
      Nat.div_eq_of_lt hone, Nat.zero_add]

end Groups

/-! ## One group written -/

section OneGroup

variable {u : State} {m : Memory} {cap pos k : Nat}

/-- The bits of `m` that come next are appended. -/
theorem State.Writing.append (h : u.Writing m cap pos) (hcap : cap ≤ 4096) (hfits : pos + k ≤ 8 * cap) :
    (u.append k (m.readBits pos k)).Writing m cap (pos + k) := by
  obtain ⟨hwf, rfl, rfl, hfin, hbits⟩ := h
  have hroom : u.wrTotal.toNat + k ≤ 8 * Config.bufBytes := hfits.trans (Nat.mul_le_mul_left 8 hcap)
  have htotal : u.wrTotal.toNat + k < 2 ^ 16 := hroom.trans_lt (by decide)
  refine ⟨Memory.wf_writeBits _ hwf hroom, rfl, Nat.mod_eq_of_lt htotal, hfin, fun n hn => ?_⟩
  rw [State.append_wrbuf]
  by_cases hold : n < u.wrTotal.toNat
  · rw [Memory.bit_writeBits_outside _ hwf hroom (.inl hold), hbits n hold]
  · obtain ⟨j, rfl⟩ := Nat.exists_eq_add_of_le (not_lt.mp hold)
    have hj : j < k := Nat.lt_of_add_lt_add_left hn
    rw [Memory.bit_writeBits_inside _ hwf hroom hj, Memory.testBit_readBits hj]

/-- The host's write of a register and the issue of a command leave the writer alone. -/
theorem State.Writing.writeF_issue (h : u.Writing m cap pos) (rs : Reg) (v w : Word) :
    ((u.writeF rs v).issue w).Writing m cap pos :=
  ⟨h.wrbuf_wf, h.wrCap, h.wrTotal, h.wfin, h.bits⟩

theorem State.readF_writeF_issue (u : State) (rs : Reg) (v w : Word) : ((u.writeF rs v).issue w).readF rs = v :=
  u.readF_writeF_same rs v

/-- A group of real bits, written back with WRBLK. -/
theorem State.Writing.after_wrblk (h : u.Writing m cap pos) (hcap : cap ≤ 4096) (hk : 1 ≤ k ∧ k ≤ 32)
    (hfits : pos + k ≤ 8 * cap) (rs : Reg) {v : Word} (hv : v.toNat = m.readBits pos k) :
    ((u.writeF rs v).after (.wrblk rs k)).Writing m cap (pos + k) ∧
      ((u.writeF rs v).after (.wrblk rs k)).status.err = false := by
  have h := h.writeF_issue rs v (encode (.wrblk rs k))
  have happend := h.append hcap hfits
  rw [State.after_of_exec (exec_wrblk_of_fits hk (h.wrCap ▸ hcap) h.wfin (by rwa [h.wrTotal, h.wrCap])),
    State.readF_writeF_issue, lowBits_of_readBits hv]
  exact ⟨⟨happend.wrbuf_wf, happend.wrCap, happend.wrTotal, happend.wfin, happend.bits⟩, rfl⟩

/-- The padding group of R real bits, written back with WRFIN. -/
theorem State.Writing.after_wrfin (h : u.Writing m cap pos) (hcap : cap ≤ 4096) (hk : 1 ≤ k ∧ k ≤ 32) {R : Nat}
    (hRk : R < k) (hfits : pos + R ≤ 8 * cap) (rd rs : Reg) {v : Word}
    (hv : v.toNat = paddingGroup (m.readBits pos R) R k) :
    ((u.writeF rs v).after (.wrfin rd rs k)).status.err = false ∧
      ((u.writeF rs v).after (.wrfin rd rs k)).status.wfin = true ∧
      ((u.writeF rs v).after (.wrfin rd rs k)).wrTotal.toNat = pos + R ∧
      ((u.writeF rs v).after (.wrfin rd rs k)).fval rd = pos + R ∧
      ∀ n < pos + R, ((u.writeF rs v).after (.wrfin rd rs k)).wrbuf.bit n = m.bit n := by
  obtain ⟨hone, hpad, hreal⟩ := lowBits_of_paddingGroup hv hRk (m.readBits_lt pos R)
  have h := h.writeF_issue rs v (encode (.wrfin rd rs k))
  have happend := h.append hcap hfits
  have hleft : k - (k - R) = R := Nat.sub_sub_self hRk.le
  have htotal : pos + R < 2 ^ 32 := by omega
  rw [State.after_of_exec (exec_wrfin_of_fits (pad := k - R) rd hk (h.wrCap ▸ hcap) h.wfin
      (by rwa [State.readF_writeF_issue]) (by rwa [State.readF_writeF_issue])
      (by rwa [h.wrTotal, h.wrCap, hleft])),
    State.readF_writeF_issue, hreal, hleft]
  refine ⟨rfl, rfl, happend.wrTotal, ?_, happend.bits⟩
  calc _ = (wordOf (u.wrTotal.toNat + R)).toNat := congrArg _ (State.readF_writeF_same _ rd _)
    _ = pos + R := by rw [show u.wrTotal.toNat = pos from h.wrTotal, wordOf_toNat htotal]

end OneGroup

/-! ## The list of groups -/

theorem State.writeGroups_concat (u : State) (rs : Reg) (gs : List (Nat × Word)) (g : Nat × Word) :
    u.writeGroups rs (gs ++ [g]) = ((u.writeGroups rs gs).writeF rs g.2).after (.wrblk rs g.1) := by
  induction gs generalizing u with
  | nil => rfl
  | cons x xs ih => simp only [List.cons_append, State.writeGroups, ih]

theorem State.readGroups_take (s : State) (rd : Reg) (ks : List Nat) (n : Nat) :
    (s.readGroups rd ks).1.take n = (s.readGroups rd (ks.take n)).1 := by
  induction ks generalizing s n with
  | nil => simp [State.readGroups]
  | cons k ks ih =>
    cases n with
    | zero => rfl
    | succ n => simp only [State.readGroups, List.take_succ_cons, ih]

section Sequence

variable {s u : State} {m : Memory} {len cap : Nat} {ks : List Nat}

/-- Groups that fit in the real data are written back, and the last of them succeeds. -/
theorem State.Writing.writeGroups_fit (h : u.Writing m cap 0) (hread : s.Reading m len 0) (hcap : cap ≤ 4096)
    (hlen : len ≤ cap) (rd rs : Reg) (hks : ∀ x ∈ ks, 1 ≤ x ∧ x ≤ 32) (hsum : ks.sum ≤ 8 * len) :
    (u.writeGroups rs (s.readGroups rd ks).1).Writing m cap ks.sum ∧
      (ks ≠ [] → (u.writeGroups rs (s.readGroups rd ks).1).status.err = false) := by
  induction ks using List.reverseRecOn with
  | nil => exact ⟨h, fun hne => absurd rfl hne⟩
  | append_singleton ks k ih =>
    obtain ⟨hks, hk⟩ := List.forall_mem_append.mp hks
    rw [List.sum_append, List.sum_singleton] at hsum ⊢
    obtain ⟨hwrite, -⟩ := ih hks (by omega)
    obtain ⟨hread', -, -⟩ := hread.readGroups_fit (hlen.trans hcap) rd hks (by omega)
    obtain ⟨-, -, -, hval⟩ := hread'.after_fits (hlen.trans hcap) (hk k (by simp)) rd hsum
    obtain ⟨hwrite', herr⟩ := hwrite.after_wrblk hcap (hk k (by simp)) (by omega) rs hval
    rw [State.readGroups_concat, State.writeGroups_concat]
    exact ⟨hwrite', fun _ => herr⟩

end Sequence

/-- Settles O60: the groups before the last hold only real bits, and WRFIN strips the padding that RDBITS put into the
last. -/
theorem readingThenWritingBackReproducesTheBuffer : Obligations.ReadingThenWritingBackReproducesTheBuffer := by
  intro s u rd rs ks k gs g hlen hpos heos hks hfit hover hgroups hroom hcap htotal hfin hwf
  have hread := State.reading_of_start hpos heos
  have hwrite := State.writing_of_start s.rdbuf hwf htotal hfin
  obtain ⟨hlegal, hk⟩ := List.forall_mem_append.mp hks
  obtain ⟨R, hR⟩ := Nat.exists_eq_add_of_le hfit
  have hRk : R < k := by omega
  rw [State.readGroups_concat] at hgroups
  obtain ⟨rfl, hlast⟩ := List.append_inj' hgroups rfl
  obtain rfl := List.singleton_inj.mp hlast
  obtain ⟨hread', -, -⟩ := hread.readGroups_fit hlen rd hlegal hfit
  obtain ⟨-, -, -, hval⟩ := hread'.after_padding hlen (hk k (by simp)) rd hR.symm hRk
  obtain ⟨hwrite', -⟩ := hwrite.writeGroups_fit hread hcap hroom rd rs hlegal hfit
  obtain ⟨herr, hwfin, hcount, hreg, hbits⟩ := hwrite'.after_wrfin hcap (hk k (by simp)) hRk (by omega) rd rs hval
  refine ⟨fun n hn1 hn => ?_, herr, hwfin, hcount.trans hR.symm, hreg.trans hR.symm, fun j hj =>
    Memory.read_eq_of_bits fun i hi => hbits _ (by omega)⟩
  have hlength : (s.readGroups rd ks).1.length = ks.length := by
    simpa using congrArg List.length (s.readGroups_widths rd ks)
  rw [State.readGroups_take]
  refine (hwrite.writeGroups_fit hread hcap hroom rd rs (fun x hx => hlegal x (List.mem_of_mem_take hx))
    (((List.take_sublist n ks).sum_le_sum fun _ _ => Nat.zero_le _).trans hfit)).2 ?_
  rw [ne_eq, List.take_eq_nil_iff, List.eq_nil_iff_length_eq_zero]
  omega

end Sys2Proof.Machine

/-! # Field arithmetic

FADD, FSUB, FMUL and FSAMPLE answer as their rules say (44_field_arith.md R200 to R203). The frame of the commands that
write one register, and the bounds of R204, are read off their effects; division (R204) and equal shares (R206) off the
answers. -/

namespace Sys2Proof.Machine

section FieldArith

variable {s u : State} {i : Instr} {rd a b q r rs1 rs2 : Reg} {n : Nat}

/-! ## A result in its register -/

theorem State.fval_withF_same (hn : n < Config.p) : (s.withF r n).fval r = n :=
  calc (s.withF r n).fval r
    _ = (wordOf n).toNat := congrArg BitVec.toNat (s.readF_writeF_same r (wordOf n))
    _ = n := wordOf_toNat (hn.trans p_lt_word)

theorem State.fval_withF_other (n : Nat) (hq : q ≠ r) : (s.withF r n).fval q = s.fval q :=
  congrArg BitVec.toNat (s.readF_writeF_other (wordOf n) hq)

/-- The inverse unit answers numbers in [1, p) only (41_modular_inverse.md R171). -/
theorem inverse_bounds {m x : Nat} (hm : m < Config.p) (hinv : inverse m = some x) : 0 < x ∧ x < Config.p := by
  obtain rfl | hpos := m.eq_zero_or_pos
  · cases inverse_zero.symm.trans hinv
  · obtain ⟨y, hy, hypos, hylt, -⟩ := inverse_spec hpos hm
    obtain rfl := Option.some.inj (hy.symm.trans hinv)
    exact ⟨hypos, hylt⟩

theorem fieldSub_self (m : Nat) : fieldSub m m = 0 := by
  rw [fieldSub, sub_self, Int.zero_emod, Int.toNat_zero]

/-! ## The answers -/

theorem exec_fsub_of_lt (rd : Reg) (h1 : s.fval rs1 < Config.p) (h2 : s.fval rs2 < Config.p) :
    exec (.fsub rd rs1 rs2) s = .next (s.withF rd (fieldSub (s.fval rs1) (s.fval rs2))).succeeded :=
  (fieldBinary_next fieldSub rd rs1 rs2 s).2 h1 h2

theorem exec_fmul_of_lt (rd : Reg) (h1 : s.fval rs1 < Config.p) (h2 : s.fval rs2 < Config.p) :
    exec (.fmul rd rs1 rs2) s = .next (s.withF rd (s.fval rs1 * s.fval rs2 % Config.p)).succeeded :=
  (fieldBinary_next fieldMul rd rs1 rs2 s).2 h1 h2

theorem exec_fsample_of_ge (rd : Reg) (h : Config.p ≤ s.fval rs1 % 2 ^ 31) :
    exec (.fsample rd rs1) s = .next s.setRej.succeeded :=
  if_pos ((mask31_toNat (s.readF rs1)).symm ▸ h)

theorem exec_fsample_of_lt (rd : Reg) (h : s.fval rs1 % 2 ^ 31 < Config.p) :
    exec (.fsample rd rs1) s = .next (s.withF rd (s.fval rs1 % 2 ^ 31)).succeeded := by
  have hmask : (s.readF rs1 &&& 0x7FFFFFFF#32).toNat = s.fval rs1 % 2 ^ 31 := mask31_toNat _
  have hlow : ¬ (s.readF rs1 &&& 0x7FFFFFFF#32).toNat ≥ Config.p := not_le.mpr (hmask ▸ h)
  rw [exec, execFsample, if_neg hlow, State.withF_eq_writeF, ← hmask, wordOf_self]
  rfl

/-! ## The effects -/

/-- A command with one destination register writes only that register, or, where FSAMPLE rejects, only REJ. -/
theorem Effects.register_write (hu : Effects i s u)
    (hi : i = .finv rd a ∨ i = .fadd rd a b ∨ i = .fsub rd a b ∨ i = .fmul rd a b ∨ i = .fsample rd a ∨
      i = .peval rd a ∨ i = .cget rd a) :
    (∃ v, u = s.writeF rd v) ∨ (i = .fsample rd a ∧ u = s.setRej) := by
  obtain rfl | rfl | rfl | rfl | rfl | rfl | rfl := hi
  case inl | inr.inl | inr.inr.inl | inr.inr.inr.inl =>
    obtain ⟨_, _, -, -, hu⟩ := hu
    exact .inl ⟨_, hu⟩
  case inr.inr.inr.inr.inl =>
    obtain ⟨-, hrej⟩ | ⟨-, hsample⟩ := hu
    · exact .inr ⟨rfl, hrej⟩
    · exact .inl ⟨_, hsample⟩
  case inr.inr.inr.inr.inr.inl =>
    obtain ⟨_, -, -, -, -, hu⟩ := hu
    exact .inl ⟨_, hu⟩
  case inr.inr.inr.inr.inr.inr =>
    obtain ⟨_, -, hu⟩ := hu
    exact .inl ⟨_, hu⟩

/-- Each of these commands reduces its result mod p, or has it from the inverse unit (44_field_arith.md R204). -/
theorem Effects.field_result (hu : Effects i s u)
    (hi : i = .finv rd a ∨ i = .fadd rd a b ∨ i = .fsub rd a b ∨ i = .fmul rd a b ∨ i = .peval rd a) :
    ∃ n, u = s.withF rd n ∧ n < Config.p ∧ (i = .finv rd a → 0 < n) := by
  obtain rfl | rfl | rfl | rfl | rfl := hi
  · obtain ⟨m, x, hm, hx, hu⟩ := hu
    obtain ⟨hpos, hlt⟩ := inverse_bounds (fieldElement_eq_some hm).2 hx
    exact ⟨x, hu, hlt, fun _ => hpos⟩
  · obtain ⟨_, _, -, -, hu⟩ := hu
    exact ⟨_, hu, Nat.mod_lt _ p_pos, nofun⟩
  · obtain ⟨x, y, -, -, hu⟩ := hu
    exact ⟨_, hu, (fieldSub_spec x y).1, nofun⟩
  · obtain ⟨_, _, -, -, hu⟩ := hu
    exact ⟨_, hu, Nat.mod_lt _ p_pos, nofun⟩
  · obtain ⟨_, -, -, -, -, hu⟩ := hu
    exact ⟨_, hu, horner_lt _ _, nofun⟩

end FieldArith

/-! ## The statements -/

/-- Settles O35: the encoding is row 5 of the opcode map, and FADD has format R3. -/
theorem faddAddsModP : Obligations.FaddAddsModP :=
  ⟨fun w => (masked_iff_decode (r := opcodeMap[5]) (List.getElem_mem _) w).mp, fieldBinary_next fieldAdd⟩

/-- Settles O36: the encoding is row 6 of the opcode map, and the difference is the residue in [0, p). -/
theorem fsubSubtractsModP : Obligations.FsubSubtractsModP := by
  refine ⟨fun w => (masked_iff_decode (r := opcodeMap[6]) (List.getElem_mem _) w).mp, fun rd rs1 rs2 s =>
    ⟨(fieldBinary_next fieldSub rd rs1 rs2 s).1, fun h1 h2 => ?_⟩⟩
  obtain ⟨hlt, hmod⟩ := fieldSub_spec (s.fval rs1) (s.fval rs2)
  exact ⟨_, hlt, hmod, exec_fsub_of_lt rd h1 h2⟩

/-- Settles O37: the encoding is row 7 of the opcode map, and FMUL has format R3. -/
theorem fmulMultipliesModP : Obligations.FmulMultipliesModP :=
  ⟨fun w => (masked_iff_decode (r := opcodeMap[7]) (List.getElem_mem _) w).mp, fieldBinary_next fieldMul⟩

/-- Settles O38: the encoding is row 8 of the opcode map, and the mask is the remainder mod 2^31. -/
theorem fsampleMasksAndRejects : Obligations.FsampleMasksAndRejects :=
  ⟨fun w => (masked_iff_decode (r := opcodeMap[8]) (List.getElem_mem _) w).mp, fun rd _ _ =>
    ⟨exec_fsample_of_ge rd, exec_fsample_of_lt rd⟩⟩

/-- Settles O46: a failure writes only STATUS, and a success besides it one register or REJ. -/
theorem registerCommandsFrame : Obligations.RegisterCommandsFrame := by
  intro i rd a b s t hi ht
  rcases exec_cases i s with ⟨e, he⟩ | ⟨u, he, hu⟩ <;> obtain rfl := Host.Outcome.next.inj (ht.symm.trans he)
  · exact ⟨fun _ _ => rfl, fun _ => rfl, fun _ => rfl, fun _ => rfl,
      rfl, rfl, rfl, rfl, rfl, rfl, rfl, rfl, rfl, rfl, rfl, fun _ => rfl⟩
  · obtain ⟨v, rfl⟩ | ⟨hfsample, rfl⟩ := hu.register_write hi
    · exact ⟨fun _ hq => s.readF_writeF_other v hq, fun _ => rfl, fun _ => rfl, fun _ => rfl,
        rfl, rfl, rfl, rfl, rfl, rfl, rfl, rfl, rfl, rfl, rfl, fun _ => rfl⟩
    · exact ⟨fun _ _ => rfl, fun _ => rfl, fun _ => rfl, fun _ => rfl,
        rfl, rfl, rfl, rfl, rfl, rfl, rfl, rfl, rfl, rfl, rfl, fun hother => absurd hfsample hother⟩

/-- Settles O54: ERR = 0 rules out a failure, and a success writes a residue. -/
theorem fieldResultsAreCanonical : Obligations.FieldResultsAreCanonical := by
  intro i rd a b s t hi _ ht herr
  rcases exec_cases i s with ⟨e, he⟩ | ⟨u, he, hu⟩ <;> obtain rfl := Host.Outcome.next.inj (ht.symm.trans he)
  · cases herr
  · obtain ⟨n, rfl, hlt, hpos⟩ := hu.field_result hi
    have hval : (s.withF rd n).succeeded.fval rd = n := State.fval_withF_same hlt
    rw [hval]
    exact ⟨hlt, hpos⟩

/-- Settles O55: with x the inverse of b, the product a * x times b is a. -/
theorem inverseThenProductDivides : Obligations.InverseThenProductDivides := by
  intro s q a b hqa ha hb0 hb
  obtain ⟨x, hinv, -, hxlt, hx⟩ := inverse_spec hb0 hb
  have hq : (s.withF q x).succeeded.fval q = x := State.fval_withF_same hxlt
  have hkept : (s.withF q x).succeeded.fval a = s.fval a := State.fval_withF_other x hqa.symm
  have hmul := exec_fmul_of_lt (s := (s.withF q x).succeeded) q (hkept ▸ ha) (hq ▸ hxlt)
  rw [hkept, hq] at hmul
  refine ⟨_, _, exec_finv_of_inverse_some q hb hinv, hmul, ?_⟩
  calc ((s.withF q x).succeeded.withF q (s.fval a * x % Config.p)).succeeded.fval q * s.fval b % Config.p
    _ = s.fval a * x % Config.p * s.fval b % Config.p :=
      congrArg (· * s.fval b % Config.p) (State.fval_withF_same (Nat.mod_lt _ p_pos))
    _ = s.fval a * (s.fval b * x) % Config.p := by rw [Nat.mod_mul_mod, mul_assoc, mul_comm x]
    _ = s.fval a * (s.fval b * x % Config.p) % Config.p := (Nat.mul_mod_mod _ _ _).symm
    _ = s.fval a := by rw [hx, mul_one, Nat.mod_eq_of_lt ha]

/-- Settles O56: the difference is 0, which has no inverse. -/
theorem equalSharesAreNotInvertible : Obligations.EqualSharesAreNotInvertible := by
  intro s q a b ha hab
  have hzero : (s.withF q 0).succeeded.fval q = 0 := State.fval_withF_same p_pos
  have hsub := exec_fsub_of_lt q ha (hab ▸ ha)
  rw [hab, fieldSub_self] at hsub
  exact ⟨_, hsub, exec_finv_of_inverse_none q (hzero.trans_lt p_pos)
    ((congrArg inverse hzero).trans inverse_zero)⟩

end Sys2Proof.Machine

/-! # Polynomial evaluation and the coefficient store

PEVAL, CPUT and CGET answer as their rules say (45_poly_eval.md R220 to R224): one lemma per answer. PEVAL's answers
speak of the polynomial in use, which coefficients at PCOUNT and above are no part of (R220). -/

namespace Sys2Proof.Machine

section Peval

variable {s : State} {rs1 : Reg}

/-! ## PEVAL -/

/-- PEVAL's field operands are in range: x, and every coefficient of the polynomial in use (R221). -/
def State.pevalInRange (s : State) (rs1 : Reg) : Prop :=
  s.fval rs1 < Config.p ∧ ∀ c ∈ s.polynomial, c.toNat < Config.p

/-- The check of PCOUNT comes first. -/
theorem exec_peval_of_illegal (rd rs1 : Reg) (hcount : s.pcount.toNat = 0 ∨ 256 < s.pcount.toNat) :
    exec (.peval rd rs1) s = .next (s.failedWith 2) :=
  if_pos (hcount.imp_left Nat.lt_one_iff.mpr)

theorem pcount_check_passes (hlo : 1 ≤ s.pcount.toNat) (hhi : s.pcount.toNat ≤ 256) :
    ¬ (s.pcount.toNat < 1 ∨ Config.coefDepth < s.pcount.toNat) :=
  not_or.mpr ⟨not_lt.mpr hlo, not_lt.mpr hhi⟩

theorem exec_peval_of_outOfRange (rd : Reg) (hlo : 1 ≤ s.pcount.toNat) (hhi : s.pcount.toNat ≤ 256)
    (h : ¬ s.pevalInRange rs1) : exec (.peval rd rs1) s = .next (s.failedWith 3) := by
  rw [exec, execPeval, if_neg (pcount_check_passes hlo hhi)]
  by_cases hx : (s.readF rs1).toNat < Config.p
  · have hany : s.polynomial.any (fun c => (fieldElement c).isNone) = true := by
      by_contra hnone
      refine h ⟨hx, fun c hc => not_le.mp fun hge => hnone ?_⟩
      exact List.any_eq_true.mpr ⟨c, hc, fieldElement_isNone.mpr hge⟩
    simp only [fieldElement_of_lt hx, if_pos hany]
    rfl
  · simp only [fieldElement_of_ge (not_lt.mp hx)]
    rfl

theorem exec_peval_of_inRange (rd : Reg) (hlo : 1 ≤ s.pcount.toNat) (hhi : s.pcount.toNat ≤ 256)
    (h : s.pevalInRange rs1) :
    exec (.peval rd rs1) s =
      .next (s.withF rd (horner (s.fval rs1) (s.polynomial.map fun c => c.toNat))).succeeded := by
  obtain ⟨hx, hcoef⟩ := h
  have hnone : ¬ s.polynomial.any (fun c => (fieldElement c).isNone) = true := fun hany =>
    have ⟨c, hc, hge⟩ := List.any_eq_true.mp hany
    absurd (hcoef c hc) (not_lt.mpr (fieldElement_isNone.mp hge))
  rw [exec, execPeval, if_neg (pcount_check_passes hlo hhi)]
  simp only [fieldElement_of_lt (show (s.readF rs1).toNat < Config.p from hx), if_neg hnone]
  rfl

/-- Horner's rule on the coefficients in use gives the polynomial's value mod p (R225). -/
theorem horner_polynomial (x : Nat) (hhi : s.pcount.toNat ≤ 256) :
    horner x (s.polynomial.map fun c => c.toNat) =
      (∑ i ∈ Finset.range s.pcount.toNat, s.coefAt i * x ^ i) % Config.p := by
  rw [horner_eq_sum, List.length_map, polynomial_length hhi]
  congr 1
  exact Finset.sum_congr rfl fun i hi => by rw [polynomial_getD (Finset.mem_range.mp hi)]

/-- Coefficient stores that agree below PCOUNT hold the same polynomial (R220). -/
theorem polynomial_setCoef {c : Vector Word 256} (h : ∀ j : Fin 256, j.val < s.pcount.toNat → c.get j = s.coef.get j) :
    ({ s with coef := c } : State).polynomial = s.polynomial := by
  refine List.ext_getElem (by simp [State.polynomial]) fun i hi _ => ?_
  obtain ⟨hcount, hdepth⟩ : i < s.pcount.toNat ∧ i < 256 := by simpa [State.polynomial] using hi
  simp only [State.polynomial, List.getElem_take, Vector.getElem_toList]
  exact h ⟨i, hdepth⟩ hcount

end Peval

/-! ## The coefficient store -/

section Store

variable {s : State} {rs1 rs2 : Reg} {j : Fin 256}

theorem coefIndex_of_eq {v : Word} (h : v.toNat = j.val) : coefIndex v = some j :=
  (coefIndex_of_lt (h ▸ j.isLt)).trans (congrArg some (Fin.ext h))

/-- The index is checked before the value (R223). -/
theorem exec_cput_of_badIndex (rs1 : Reg) (h : 256 ≤ s.fval rs2) :
    exec (.cput rs1 rs2) s = .next (s.failedWith 2) := by
  rw [exec, execCput, coefIndex_of_ge (show 256 ≤ (s.readF rs2).toNat from h)]
  rfl

theorem exec_cput_of_ge (hj : s.fval rs2 = j.val) (h : Config.p ≤ s.fval rs1) :
    exec (.cput rs1 rs2) s = .next (s.failedWith 3) := by
  rw [exec, execCput, coefIndex_of_eq (show (s.readF rs2).toNat = j.val from hj),
    fieldElement_of_ge (show Config.p ≤ (s.readF rs1).toNat from h)]
  rfl

theorem exec_cput_of_lt (hj : s.fval rs2 = j.val) (h : s.fval rs1 < Config.p) :
    exec (.cput rs1 rs2) s = .next (s.writeCoef j (s.readF rs1)).succeeded := by
  rw [exec, execCput, coefIndex_of_eq (show (s.readF rs2).toNat = j.val from hj),
    fieldElement_of_lt (show (s.readF rs1).toNat < Config.p from h)]
  rfl

theorem exec_cget_of_badIndex (rd : Reg) (h : 256 ≤ s.fval rs2) :
    exec (.cget rd rs2) s = .next (s.failedWith 2) := by
  rw [exec, execCget, coefIndex_of_ge (show 256 ≤ (s.readF rs2).toNat from h)]
  rfl

theorem exec_cget_of_index (rd : Reg) (hj : s.fval rs2 = j.val) :
    exec (.cget rd rs2) s = .next (s.writeF rd (s.readCoef j)).succeeded := by
  rw [exec, execCget, coefIndex_of_eq (show (s.readF rs2).toNat = j.val from hj)]
  rfl

end Store

/-! ## The statements -/

/-- Settles O42: the encoding is row 9 of the opcode map, and Horner's rule gives the sum. -/
theorem pevalEvaluatesThePolynomial : Obligations.PevalEvaluatesThePolynomial := by
  refine ⟨fun w => (masked_iff_decode (r := opcodeMap[9]) (List.getElem_mem _) w).mp, fun rd rs1 s =>
    ⟨exec_peval_of_illegal rd rs1, fun hlo hhi hbad => ?_, fun hlo hhi hx hcoef => ?_⟩⟩
  · refine exec_peval_of_outOfRange rd hlo hhi fun ⟨hx, hcoef⟩ => ?_
    rcases hbad with hge | ⟨i, hi, hge⟩
    · exact absurd hx (not_lt.mpr hge)
    · exact absurd ((polynomial_all_lt hhi).mp hcoef i hi) (not_lt.mpr hge)
  · rw [← horner_polynomial _ hhi]
    exact exec_peval_of_inRange rd hlo hhi ⟨hx, (polynomial_all_lt hhi).mpr hcoef⟩

/-- Settles O57: both stores hold the same polynomial, so PEVAL answers in the same way from both. -/
theorem pevalIgnoresUnusedCoefficients : Obligations.PevalIgnoresUnusedCoefficients := by
  intro rd rs1 s t c hc ht
  have hpoly := polynomial_setCoef hc
  have hrange : ({ s with coef := c } : State).pevalInRange rs1 ↔ s.pevalInRange rs1 := by
    rw [State.pevalInRange, hpoly]
    rfl
  by_cases hcount : s.pcount.toNat = 0 ∨ 256 < s.pcount.toNat
  · obtain rfl := Host.Outcome.next.inj (ht.symm.trans (exec_peval_of_illegal rd rs1 hcount))
    exact exec_peval_of_illegal rd rs1 hcount
  have hlo : 1 ≤ s.pcount.toNat := by omega
  have hhi : s.pcount.toNat ≤ 256 := by omega
  by_cases h : s.pevalInRange rs1
  · obtain rfl := Host.Outcome.next.inj (ht.symm.trans (exec_peval_of_inRange rd hlo hhi h))
    refine (exec_peval_of_inRange (s := { s with coef := c }) rd hlo hhi (hrange.mpr h)).trans ?_
    rw [hpoly]
    rfl
  · obtain rfl := Host.Outcome.next.inj (ht.symm.trans (exec_peval_of_outOfRange rd hlo hhi h))
    exact exec_peval_of_outOfRange (s := { s with coef := c }) rd hlo hhi (mt hrange.mp h)

/-- Settles O43: the mask of row 10 of the opcode map covers the whole word. -/
theorem czeroClearsTheWholeStore : Obligations.CzeroClearsTheWholeStore := by
  refine ⟨fun w => ?_, fun s => ⟨s.clearCoef.coef, s.readCoef_clearCoef, rfl⟩⟩
  have hrow : w &&& BitVec.allOnes 32 = 0x0A000000 ↔ decode w = .ok .czero :=
    masked_iff_decode (r := opcodeMap[10]) (List.getElem_mem _) w
  rw [← hrow, BitVec.and_allOnes]

/-- Settles O44: the encoding is row 11 of the opcode map. -/
theorem cputStoresAFieldElement : Obligations.CputStoresAFieldElement :=
  ⟨fun w => (masked_iff_decode (r := opcodeMap[11]) (List.getElem_mem _) w).mp, fun rs1 _ _ =>
    ⟨exec_cput_of_badIndex rs1, fun hj => exec_cput_of_ge (j := ⟨_, hj⟩) rfl, fun _ => exec_cput_of_lt⟩⟩

/-- Settles O45: the encoding is row 12 of the opcode map. -/
theorem cgetLoadsTheRawWord : Obligations.CgetLoadsTheRawWord :=
  ⟨fun w => (masked_iff_decode (r := opcodeMap[12]) (List.getElem_mem _) w).mp, fun rd _ _ =>
    ⟨exec_cget_of_badIndex rd, fun _ => exec_cget_of_index rd⟩⟩

end Sys2Proof.Machine

/-! # Exceptions

Errors are recorded outcomes and never stop the machine (60_exceptions.md R240 to R261). A word that no row of the
opcode map accepts fails with ILLEGAL_COMMAND, which is the decoder's error alone: no meaning raises it (R242). -/

namespace Sys2Proof.Machine

section Illegal

variable {s t : State} {w : Word} {ms : List Move}

/-! ## Words that do not decode -/

theorem opc_lt_of_mem : ∀ r ∈ opcodeMap, r.opc.toNat < 0x0D := by decide

/-- Below OPC every row's match is 0: the bits that its mask covers there must be 0 (30_encoding.md R117). -/
theorem pattern_low_of_mem : ∀ r ∈ opcodeMap, r.pattern &&& 0x00FFFFFF = 0 := by decide

theorem not_decode_of_undefined (h : 0x0D ≤ (opcField w).toNat) (i : Instr) : decode w ≠ .ok i := by
  intro hi
  obtain ⟨r, hr, hopc, -⟩ := decode_eq_ok_iff.mp hi
  have := opc_lt_of_mem r hr
  rw [hopc] at this
  omega

theorem not_decode_of_nonzeroField {r : Row} (hr : r ∈ opcodeMap) (hopc : opcField w = r.opc)
    (h : w &&& r.mask &&& 0x00FFFFFF ≠ 0) (i : Instr) : decode w ≠ .ok i := by
  intro hi
  obtain ⟨r', hr', hopc', hmasked, -⟩ := decode_eq_ok_iff.mp hi
  obtain rfl := row_eq_of_opc hr' hr (hopc'.trans hopc)
  exact h (hmasked ▸ pattern_low_of_mem r' hr')

/-- In both forms of the core's turn, a word in flight that does not decode fails with ILLEGAL_COMMAND. -/
theorem step_illegal (hb : s.status.busy = true)
    (hturn : s.bus.pending = [] ∧ ms = [] ∨ s.bus.pending = .core :: ms) (h : ∀ i, decode s.cmd ≠ .ok i) :
    step s = .next ((s.withPending ms).failedWith 1) :=
  calc step s
    _ = coreTurn (s.withPending ms) := step_coreTurn hturn
    _ = completion (s.withPending ms) := if_pos hb
    _ = .next ((s.withPending ms).failedWith 1) := completion_illegal h

/-! ## Commands never raise ILLEGAL_COMMAND -/

/-- The outcome does not leave the code of ILLEGAL_COMMAND in ECODE. -/
def NotIllegal (o : Host.Outcome State Fault Refusal) : Prop := ∀ t, o = .next t → t.status.ecode ≠ 1

@[simp] theorem notIllegal_next : NotIllegal (.next t) ↔ t.status.ecode ≠ 1 := by
  simp [NotIllegal]

theorem fieldBinary_notIllegal (op : Nat → Nat → Nat) (rd rs1 rs2 : Reg) (h : s.status.ecode = 0) :
    NotIllegal (fieldBinary op rd rs1 rs2 s) := by
  unfold fieldBinary
  repeat' split
  all_goals simp [h, CmdError.code]

/-- Every check of a command raises an error of its own, and a success keeps ECODE as issue has left it. -/
theorem exec_notIllegal (i : Instr) (h : s.status.ecode = 0) : NotIllegal (exec i s) := by
  cases i with
  | nop | czero => simp [exec, execNop, execCzero, h]
  | fadd rd rs1 rs2 | fsub rd rs1 rs2 | fmul rd rs1 rs2 => exact fieldBinary_notIllegal _ rd rs1 rs2 h
  | finv | rdbits | wrblk | wrfin | fsample | peval | cput | cget =>
    simp only [exec, execFinv, execRdbits, execWrblk, execWrfin, execFsample, execPeval, execCput, execCget]
    repeat' split
    all_goals simp [h, CmdError.code]

end Illegal

/-! ## STATUS after a failure -/

/-- STATUS after a failure of an issued command (60_exceptions.md R241), for each code and each of the kept flags. -/
theorem Status.word_of_failure : ∀ (code : BitVec 4) (wbusy eos wfin : Bool),
    (Status.mk false true true code false false wbusy eos wfin).word =
      0x00000006#32 ||| (code.setWidth 32 <<< 4) ||| (if eos then 0x1000#32 else 0) |||
        (if wfin then 0x2000#32 else 0) ||| (if wbusy then 0x0400#32 else 0) := by
  decide

/-! ## The statements -/

/-- Settles O15: a word of these forms meets no row's mask and match, and no meaning raises ILLEGAL_COMMAND. -/
theorem otherWordsCompleteWithIllegalCommand : Obligations.OtherWordsCompleteWithIllegalCommand := by
  refine ⟨fun s ms hb hturn => ⟨fun h => ?_, fun row hrow hopc h => ?_⟩, fun i s t _ hecode ht => ?_⟩
  · exact step_illegal hb hturn (not_decode_of_undefined h)
  · obtain ⟨r, hr, rfl⟩ : ∃ r ∈ opcodeMap, (r.opc, r.mask) = row := List.mem_map.mp hrow
    exact step_illegal hb hturn (not_decode_of_nonzeroField hr hopc h)
  · exact exec_notIllegal i hecode t ht

/-- Settles O31: a failure writes only STATUS (O30), and there it keeps the flags that issue and the host have left. -/
theorem statusWordAfterFailure : Obligations.StatusWordAfterFailure := by
  intro i s t herr hnone hrej ht hterr
  obtain ⟨code, -, -, rfl⟩ := failureWritesNothingElse i s t herr ht hterr
  have hstatus : (s.failedWith code).status =
      ⟨false, true, true, code, false, false, s.status.wbusy, s.status.eos, s.status.wfin⟩ := by
    simp only [State.failedWith_status, hnone, hrej]
  exact ⟨rfl, (congrArg Status.word hstatus).trans (Status.word_of_failure ..)⟩

/-- Settles O12, by the cases of a step. -/
theorem noStepStopsTheMachine : Obligations.NoStepStopsTheMachine := step_next

/-- Settles O16: in both forms of its turn an idle core keeps its state. -/
theorem idleCoreKeepsItsState : Obligations.IdleCoreKeepsItsState := by
  refine fun s hb => ⟨fun hp => step_idle hp hb, fun ms hp => ?_⟩
  calc step s
    _ = coreTurn (s.withPending ms) := step_coreTurn (.inr hp)
    _ = .next (s.withPending ms) := if_neg (by simp [hb])

/-- Settles O32: issue clears the per-command fields of STATUS, and the completion of NOP sets only DONE. -/
theorem nopClearsAStaleError : Obligations.NopClearsAStaleError := by
  intro s ms hb hp
  obtain ⟨hword, hexec⟩ := nopCompletes
  have hturn : step ((s.issue 0).withPending (.core :: ms)) =
      .next { (s.issue 0).succeeded with bus := { s.bus with pending := ms } } :=
    step_completion (b := s.bus) rfl ((hword 0).mpr rfl) (hexec _) rfl
  rw [run_succ 1 (step_issue hb hp), run_succ 0 hturn]
  rfl

end Sys2Proof.Machine

/-! # Resets

A power-on and a soft reset leave one and the same state, in which every piece of architectural state is 0; only the
model's own bus fields stay (70_reset_and_hazards.md R270 to R272, log 9). -/

namespace Sys2Proof.Machine

section Reset

variable {s : State} {v : Word} {ms : List Move}

/-! ## The two reset events -/

theorem step_powerOn (hp : s.bus.pending = .powerOn :: ms) : step s = .next (s.withPending ms).clear := step_move hp

/-- The bits of the written word above bit 0 are ignored (70_reset_and_hazards.md R270). -/
theorem step_softReset (hp : s.bus.pending = .write (WordAddr.ofOffset 0x0008) v :: ms) (hv : v.getLsbD 0 = true) :
    step s = .next (s.withPending ms).clear := by
  rw [step_ctrlWrite hp (WordAddr.offset_ofOffset (by decide) (by decide)), if_pos hv]
  rfl

/-- A CTRL write with bit 0 = 0 is used up and does nothing else (70_reset_and_hazards.md R270). -/
theorem step_ctrlWrite_of_low (hp : s.bus.pending = .write (WordAddr.ofOffset 0x0008) v :: ms)
    (hv : v.getLsbD 0 = false) : step s = .next (s.withPending ms) := by
  rw [step_ctrlWrite hp (WordAddr.offset_ofOffset (by decide) (by decide)), if_neg (Bool.eq_false_iff.mp hv)]

/-! ## What a reset leaves, through the model's own reads -/

/-- The state after reset is the one that a reset of it gives. -/
theorem State.clear_reset : State.reset.clear = State.reset := rfl

@[simp] theorem State.readF_clear (s : State) (r : Reg) : s.clear.readF r = 0 := by
  simp [State.readF_eq, State.reset]

@[simp] theorem State.readCoef_clear (s : State) (j : Fin 256) : s.clear.readCoef j = 0 := by
  simp [State.readCoef_eq, State.reset]

theorem Status.word_reset : Status.reset.word = 0 := by decide

end Reset

/-! ## The statements -/

/-- Settles O19, one lemma for each event. -/
theorem bothResetsGiveTheResetState : Obligations.BothResetsGiveTheResetState :=
  fun _ _ _ => ⟨step_softReset, step_powerOn, step_ctrlWrite_of_low⟩

/-- Settles O8: each of these states is `s.clear` for some `s`, the state after reset for itself. -/
theorem resetLeavesEverythingZero : Obligations.ResetLeavesEverythingZero := by
  intro t ht
  obtain ⟨s, rfl⟩ : ∃ s : State, t = s.clear := by
    rcases ht with rfl | ⟨s, ms, hst, hp | ⟨v, hv, hp⟩⟩
    · exact ⟨State.reset, State.clear_reset.symm⟩
    · exact ⟨_, Host.Outcome.next.inj (hst.symm.trans (step_powerOn hp))⟩
    · exact ⟨_, Host.Outcome.next.inj (hst.symm.trans (step_softReset hp hv))⟩
  exact ⟨s.readF_clear, s.readCoef_clear, Memory.read_nil, Memory.read_nil, rfl, Status.word_reset,
    rfl, rfl, rfl, rfl, rfl, rfl, rfl, rfl⟩

end Sys2Proof.Machine
